-- ==== Sys2Proof/Word.lean ====
section
/-! DEFINITION. Word.lean: the widths of the datapath (00_scope.md R9, R10).

All values are unsigned bit vectors. `add32` of 00_scope.md R14 is the addition of `BitVec 32`,
which is modulo 2^32 and discards the carry; `and`, `xor`, `not` are its bitwise operations. -/

namespace Sys2Proof

/-- A datapath word, 32 bits (R9 WORD). -/
abbrev Word := BitVec 32

/-- A byte of the message, of the accumulator or of the digest (R11). -/
abbrev Byte := BitVec 8

/-- A command header, 16 bits (30_encoding.md R71). -/
abbrev Hdr := BitVec 16

end Sys2Proof
end

