-- ==== Sys2Proof/Machine/Bits.lean ====
section
/-! DEFINITION. Machine/Bits.lean: the pseudocode primitives of 00_scope.md R14. -/

namespace Sys2Proof.Machine

/-- rotr(x, n), right rotation (R14); used for 1 ≤ n ≤ 31 only. -/
def rotr (x : Word) (n : Nat) : Word := (x >>> n) ||| (x <<< (32 - n))

/-- shr(x, n), logical right shift (R14). -/
def shr (x : Word) (n : Nat) : Word := x >>> n

/-- be32: four bytes to a word, the first the most significant (R14, 20_memory.md R52). -/
def be32 (b0 b1 b2 b3 : Byte) : Word := b0 ++ b1 ++ b2 ++ b3

/-- byte(w, k), k in 0..3, byte 0 the most significant (R14). -/
def byteOf (w : Word) (k : Nat) : Byte := w.extractLsb' (24 - 8 * k) 8

/-- be64: the eight bytes of a 64-bit value, the most significant first (R14). -/
def be64 (x : BitVec 64) : Vector Byte 8 := Vector.ofFn fun k => x.extractLsb' (56 - 8 * k.val) 8

end Sys2Proof.Machine
end

