-- ==== Sys2Proof/Config.lean ====
section
/-! DEFINITION. Config.lean: the parameters of 00_scope.md R9. Every one is fixed by the spec, but for
the two timing figures of 70_reset_and_hazards.md R220, which the spec leaves open and no rule uses. -/

namespace Sys2Proof.Config

/-- BLOCK: bytes per block (R9). -/
abbrev blockBytes : Nat := 64

/-- The largest value of LENB, 2^61 - 1 (10_state.md R25, 41_ingest.md R117). -/
abbrev lenMax : Nat := 2 ^ 61 - 1

/-- NMAX: the largest payload of one command (R9, 30_encoding.md R74). -/
abbrev payloadMax : Nat := 255

/-- T_COMPRESS, cycles per block: left open by R220 and used by nothing (log 14). -/
opaque tCompress : Nat

/-- T_CMD, cycles per command: left open by R220 and used by nothing (log 14). -/
opaque tCmd : Nat

end Sys2Proof.Config
end

