-- ==== Sys2Proof/Syntax.lean ====
section
/-! DEFINITION. Syntax.lean: the nine commands (30_encoding.md R70, R73; spec/opcode_table.json). -/

namespace Sys2Proof

/-- One command, the instruction of this hardware (30_encoding.md R70). A command with a payload carries
it; its operand n (the ARG field, R72) is the payload's length (log 8). The index of RDW and RDB is ARG
as it stands, so that an index out of range is a command too: it takes the fault E_INDEX (R72, R76). -/
inductive Instr where
  /-- INIT, 40_lifecycle.md R101. -/
  | init
  /-- WRITE n with its n payload bytes in stream order, 41_ingest.md R111. -/
  | write (payload : List Byte)
  /-- ABSORB n with its n payload bytes, 41_ingest.md R114. -/
  | absorb (payload : List Byte)
  /-- FINALIZE, 42_padding.md R127. -/
  | finalize
  /-- RESET, 40_lifecycle.md R102. -/
  | reset
  /-- RDW i, 45_readout.md R172. -/
  | rdw (i : BitVec 8)
  /-- RDB j, 45_readout.md R173. -/
  | rdb (j : BitVec 8)
  /-- RDSTAT, 45_readout.md R174. -/
  | rdstat
  /-- SRCERR, 40_lifecycle.md R103. -/
  | srcerr
  deriving DecidableEq, Repr

end Sys2Proof
end

