-- ==== Sys2Proof/WellFormed.lean ====
section
/-! DEFINITION. WellFormed.lean: which terms of `Instr` are commands of the hardware. -/

namespace Sys2Proof

/-- ARG is 8 bits, so a payload has at most 255 bytes (30_encoding.md R72, R74). Nothing else is asked: an
ABSORB of any length and an index of any value are commands that the engine decodes (R72). -/
def Instr.wf : Instr → Bool
  | .init => true
  | .write payload => decide (payload.length ≤ Config.payloadMax)
  | .absorb payload => decide (payload.length ≤ Config.payloadMax)
  | .finalize => true
  | .reset => true
  | .rdw _ => true
  | .rdb _ => true
  | .rdstat => true
  | .srcerr => true

end Sys2Proof
end

