-- ==== Sys2Proof/Decode.lean ====
section
/-! DEFINITION. Decode.lean: headers, fields, the decoder and the encoder (30_encoding.md R71 to R81). -/

namespace Sys2Proof

/-! ### Fields of the header (R71) -/

/-- OPC, bits 15:12. -/
def opc (hdr : Hdr) : BitVec 4 := hdr.extractLsb' 12 4

/-- ZERO, bits 11:8. -/
def zeroField (hdr : Hdr) : BitVec 4 := hdr.extractLsb' 8 4

/-- ARG, bits 7:0. -/
def arg (hdr : Hdr) : BitVec 8 := hdr.extractLsb' 0 8

/-- The number of payload bytes a header owns (R74): ARG for OPC 2 and 3, whatever ZERO is and whether
or not the header is legal; 0 for every other OPC. -/
def plen (hdr : Hdr) : Nat :=
  if opc hdr = 0x2#4 ∨ opc hdr = 0x3#4 then (arg hdr).toNat else 0

/-! ### Cause codes (60_exceptions.md R181) -/

/-- The causes of a fault, codes 1 to 8 of 60_exceptions.md R181. Code 9, E_FAULTED, is a response status
only and never a cause (R184): it is `statusFaulted` of Machine/Ops.lean. -/
inductive Cause where
  /-- 0x01: reserved OPC, ZERO not 0, or ARG not 0 on a command without operand. -/
  | E_ILLEGAL
  /-- 0x02: RDW with ARG > 7, RDB with ARG > 31. -/
  | E_INDEX
  /-- 0x03: ABSORB with ARG other than 64. -/
  | E_BLOCKLEN
  /-- 0x04: ABSORB with bytes waiting. -/
  | E_ALIGN
  /-- 0x05: WRITE, ABSORB or FINALIZE in phase FINALIZED. -/
  | E_FINAL
  /-- 0x06: RDW or RDB before FINALIZED. -/
  | E_NODIGEST
  /-- 0x07: SRCERR. -/
  | E_SRCERR
  /-- 0x08: LENB would pass 2^61 - 1. -/
  | E_LENOVF
  deriving DecidableEq, Repr

/-- The 4-bit code that ERR records (10_state.md R28, 60_exceptions.md R181). -/
def Cause.code : Cause → BitVec 4
  | .E_ILLEGAL => 1#4
  | .E_INDEX => 2#4
  | .E_BLOCKLEN => 3#4
  | .E_ALIGN => 4#4
  | .E_FINAL => 5#4
  | .E_NODIGEST => 6#4
  | .E_SRCERR => 7#4
  | .E_LENOVF => 8#4

/-! ### The decoder -/

/-- The command that a header with its payload spells, or the cause that rejects it. These are the rows
of spec/opcode_table.json by their mask and match (R81), ZERO first (R78). E_INDEX and E_BLOCKLEN are not
tested here but in the meanings of RDW, RDB and ABSORB, which own those headers in the table (log 7). -/
def decodeCommand (hdr : Hdr) (payload : List Byte) : Except Cause Instr :=
  if zeroField hdr ≠ 0 then .error .E_ILLEGAL
  else match (opc hdr).toNat with
    | 0x1 => if arg hdr = 0 then .ok .init else .error .E_ILLEGAL
    | 0x2 => .ok (.write payload)
    | 0x3 => .ok (.absorb payload)
    | 0x4 => if arg hdr = 0 then .ok .finalize else .error .E_ILLEGAL
    | 0x5 => if arg hdr = 0 then .ok .reset else .error .E_ILLEGAL
    | 0x6 => .ok (.rdw (arg hdr))
    | 0x7 => .ok (.rdb (arg hdr))
    | 0x8 => if arg hdr = 0 then .ok .rdstat else .error .E_ILLEGAL
    | 0x9 => if arg hdr = 0 then .ok .srcerr else .error .E_ILLEGAL
    | _ => .error .E_ILLEGAL

/-- Why a byte string does not begin with a command. -/
inductive DecodeError where
  /-- Fewer than the two bytes of a header. -/
  | headerShort
  /-- The header is there and fewer payload bytes than it owns (70_reset_and_hazards.md R218 (a)). -/
  | payloadShort (hdr : Hdr)
  /-- The header is illegal (R76). -/
  | bad (hdr : Hdr) (c : Cause)
  deriving DecidableEq, Repr

/-- The two bytes of a header on a byte-wide channel, most significant first (R75). -/
def hdrBytes (hdr : Hdr) : List Byte := [hdr.extractLsb' 8 8, hdr.extractLsb' 0 8]

/-- The header that two bytes carry, most significant first (R75). -/
def hdrOfBytes (hi lo : Byte) : Hdr := hi ++ lo

/-- The first command of a byte string in the byte-serial form of R75, and the bytes after it. -/
def decode : List Byte → Except DecodeError (Instr × List Byte)
  | hi :: lo :: rest =>
    let hdr := hdrOfBytes hi lo
    if rest.length < plen hdr then .error (.payloadShort hdr)
    else match decodeCommand hdr (rest.take (plen hdr)) with
      | .ok i => .ok (i, rest.drop (plen hdr))
      | .error c => .error (.bad hdr c)
  | _ => .error .headerShort

/-! ### The encoder -/

/-- The header of a command (R73). -/
def headerOf : Instr → Hdr
  | .init => 0x1000#16
  | .write payload => 0x20#8 ++ BitVec.ofNat 8 payload.length
  | .absorb payload => 0x30#8 ++ BitVec.ofNat 8 payload.length
  | .finalize => 0x4000#16
  | .reset => 0x5000#16
  | .rdw i => 0x60#8 ++ i
  | .rdb j => 0x70#8 ++ j
  | .rdstat => 0x8000#16
  | .srcerr => 0x9000#16

/-- The payload of a command (R70: only WRITE and ABSORB have one). -/
def payloadOf : Instr → List Byte
  | .write payload => payload
  | .absorb payload => payload
  | .init => []
  | .finalize => []
  | .reset => []
  | .rdw _ => []
  | .rdb _ => []
  | .rdstat => []
  | .srcerr => []

/-- The byte-serial form of a command: header, most significant byte first, then the payload (R75). -/
def encode (i : Instr) : List Byte := hdrBytes (headerOf i) ++ payloadOf i

/-! ### The opcode table as rows (R73, R81) -/

/-- One row of spec/opcode_table.json. -/
structure OpcodeRow where
  mnemonic : String
  mask : Hdr
  pattern : Hdr
  deriving DecidableEq, Repr

/-- The nine rows of spec/opcode_table.json. -/
def opcodeRows : List OpcodeRow :=
  [⟨"INIT", 0xFFFF#16, 0x1000#16⟩, ⟨"WRITE", 0xFF00#16, 0x2000#16⟩, ⟨"ABSORB", 0xFF00#16, 0x3000#16⟩,
   ⟨"FINALIZE", 0xFFFF#16, 0x4000#16⟩, ⟨"RESET", 0xFFFF#16, 0x5000#16⟩, ⟨"RDW", 0xFF00#16, 0x6000#16⟩,
   ⟨"RDB", 0xFF00#16, 0x7000#16⟩, ⟨"RDSTAT", 0xFFFF#16, 0x8000#16⟩, ⟨"SRCERR", 0xFFFF#16, 0x9000#16⟩]

/-- The row's mnemonic of a command. -/
def mnemonicOf : Instr → String
  | .init => "INIT"
  | .write _ => "WRITE"
  | .absorb _ => "ABSORB"
  | .finalize => "FINALIZE"
  | .reset => "RESET"
  | .rdw _ => "RDW"
  | .rdb _ => "RDB"
  | .rdstat => "RDSTAT"
  | .srcerr => "SRCERR"

/-! ### Words numbered as the opcode table numbers them -/

/-- The header of a table word: its bits 15:0. -/
def tableHeader (nbits w : Nat) : Hdr := BitVec.ofNat 16 (w % 2 ^ nbits)

/-- The payload a table word's header owns: byte k is bits 23+8k:16+8k of the word, and every bit above
`nbits` is 0. -/
def tablePayload (nbits w : Nat) : List Byte :=
  (List.range (plen (tableHeader nbits w))).map fun k => BitVec.ofNat 8 ((w % 2 ^ nbits) / 2 ^ (16 + 8 * k))

/-- The instruction the decoder reads from a table word, laid out as the byte-serial form of R75. -/
def decodeTableWord (nbits w : Nat) : Option Instr :=
  match decode (hdrBytes (tableHeader nbits w) ++ tablePayload nbits w) with
  | .ok (i, _) => some i
  | .error _ => none

end Sys2Proof
end

