-- ==== Sys2Proof/Machine/State.lean ====
section
/-! DEFINITION. Machine/State.lean: the state of one engine (10_state.md R20) and the ports beside it (30_encoding.md
R84), as plain data; the state after hardware reset (10_state.md R37). -/

namespace Sys2Proof.Machine

/-- PHASE (10_state.md R27). The values 5, 6, 7 are never taken and cannot be written down (log 11). -/
inductive Phase where
  /-- 0, INIT: initialised, no WRITE or ABSORB accepted yet. -/
  | init
  /-- 1, ABSORBING: at least one WRITE or ABSORB accepted. -/
  | absorbing
  /-- 2, PADDING: inside FINALIZE only. -/
  | padding
  /-- 3, FINALIZED: the digest is in H. -/
  | finalized
  /-- 4, FAULT: sticky until initialise. -/
  | fault
  deriving DecidableEq, Repr

/-- The working registers a..h (10_state.md R22). -/
structure WorkRegs where
  a : Word
  b : Word
  c : Word
  d : Word
  e : Word
  f : Word
  g : Word
  h : Word
  deriving DecidableEq, Repr

/-- A response (30_encoding.md R80). -/
structure Response where
  status : BitVec 8
  data : Word
  deriving DecidableEq, Repr

/-- A command in progress: its header is taken, its payload is not complete (30_encoding.md R85). -/
structure InProgress where
  hdr : Hdr
  got : List Byte
  deriving DecidableEq, Repr

/-- The whole state. The first nine fields are the registers of 10_state.md R20; the last six are the model's
own, the two sides of the ports of 30_encoding.md R84 (log 1). -/
structure State where
  /-- Hash state H[0..7] (10_state.md R21). -/
  H : Vector Word 8
  /-- Working registers a..h (10_state.md R22). -/
  v : WorkRegs
  /-- Message schedule W[0..63] (10_state.md R23). -/
  W : Vector Word 64
  /-- Byte accumulator BUF[0..63] (10_state.md R24). -/
  BUF : Vector Byte 64
  /-- Count of accepted message bytes (10_state.md R25). -/
  LENB : BitVec 61
  /-- Phase (10_state.md R27). -/
  PHASE : Phase
  /-- Cause of the fault, else 0 (10_state.md R28). -/
  ERR : BitVec 4
  /-- Header of the faulting command, else 0 (10_state.md R28). -/
  ERRHDR : Hdr
  /-- Round counter (10_state.md R29). -/
  T : BitVec 7
  /-- Level of rst_n: true is high, reset not asserted (30_encoding.md R84). -/
  rstN : Bool
  /-- Headers offered and not taken, oldest first. -/
  cmdIn : List Hdr
  /-- Payload bytes offered and not taken, oldest first. -/
  plIn : List Byte
  /-- The command whose payload the engine is still taking. -/
  cur : Option InProgress
  /-- The response offered and not taken. -/
  rspOut : Option Response
  /-- Level of rsp_ready. -/
  rspReady : Bool
  deriving DecidableEq, Repr

/-- What the channels give the engine in one step: nothing to execute, or one whole command. -/
inductive Fetch where
  /-- Nothing to execute: reset asserted, idle, or waiting for the host. -/
  | wait (s : State)
  /-- A header with all the payload it owns, taken from the channels. -/
  | command (hdr : Hdr) (payload : List Byte) (s : State)
  deriving DecidableEq, Repr

/-- Reasons to stop: none. The step function is total and no command stops the engine (60_exceptions.md R185);
the fault of 60_exceptions.md R187 is a next state, not one of these. Nothing raises a value of this type: safe. -/
inductive Fault
  deriving DecidableEq, Repr

/-- Reasons to refuse. -/
inductive Refusal where
  /-- An arm of exec that has no meaning yet; safe. No arm raises it: all nine commands have their meaning. -/
  | notModelled (mnemonic : String)
  deriving DecidableEq, Repr

/-- The state after hardware reset (10_state.md R37, 70_reset_and_hazards.md R210). R37 leaves a..h, W and BUF
unspecified and allows zero: DESIGN CHOICE, unsafe (log 3). The ports start empty, reset released and the host
ready: DESIGN CHOICE (log 19). -/
def State.reset : State where
  H := IV
  v := ⟨0, 0, 0, 0, 0, 0, 0, 0⟩
  W := Vector.replicate 64 0
  BUF := Vector.replicate 64 0
  LENB := 0
  PHASE := .init
  ERR := 0
  ERRHDR := 0
  T := 0
  rstN := true
  cmdIn := []
  plIn := []
  cur := none
  rspOut := none
  rspReady := true

end Sys2Proof.Machine
end

