-- ==== Sys2Proof/Machine/Ops.lean ====
section
/-! DEFINITION. Machine/Ops.lean: the named operations every command shares: BUF accesses, the response, taking a
fault and the return from it, hardware reset, and taking one command from the channels. -/

namespace Sys2Proof.Machine

/-! ### BUF (00_scope.md R13) -/

/-- MemWrite(k, 1, b): BUF[k] <- b. -/
def memWrite (k : Fin 64) (b : Byte) (s : State) : State :=
  { s with BUF := s.BUF.set k.val b }

/-- MemRead(4t, 4): the big-endian word of BUF[4t..4t+3]. -/
def memRead (t : Fin 16) (s : State) : Word :=
  be32 s.BUF[4 * t.val] s.BUF[4 * t.val + 1] s.BUF[4 * t.val + 2] s.BUF[4 * t.val + 3]

/-! ### Responses (30_encoding.md R80) -/

/-- Status OK (60_exceptions.md R181). -/
def statusOK : BitVec 8 := 0x00#8

/-- Status E_FAULTED: a response only, never stored in ERR (60_exceptions.md R181, R184). -/
def statusFaulted : BitVec 8 := 0x09#8

/-- The response status of a cause: its code, bits 7:4 zero (30_encoding.md R80). -/
def statusOf (c : Cause) : BitVec 8 := c.code.setWidth 8

/-- respond(st, d): the single response of the command (00_scope.md R15). -/
def respond (st : BitVec 8) (d : Word) (s : State) : State :=
  { s with rspOut := some ⟨st, d⟩ }

/-- The response data on a byte-wide transport, most significant byte first (20_memory.md R55). -/
def responseDataBytes (d : Word) : List Byte := [byteOf d 0, byteOf d 1, byteOf d 2, byteOf d 3]

/-- A response as a byte string of five bytes: the status, then the data (30_encoding.md R80). -/
def responseBytes (r : Response) : List Byte := r.status :: responseDataBytes r.data

/-! ### Taking the fault, and the return from it -/

/-- Trap entry (60_exceptions.md R187): ERR, ERRHDR and PHASE are written, the response is (c, 0), and nothing
else changes. -/
def raiseFault (c : Cause) (hdr : Hdr) (s : State) : State :=
  respond (statusOf c) 0 { s with ERR := c.code, ERRHDR := hdr, PHASE := .fault }

/-- The answer of a faulted engine (60_exceptions.md R184): status E_FAULTED, no state change. -/
def answerFaulted (s : State) : State := respond statusFaulted 0 s

/-- A header that decodes to Bad(c) (60_exceptions.md R185 steps 3 and 4). Its payload is already taken and is
dropped (41_ingest.md R118). -/
def refuseHeader (c : Cause) (hdr : Hdr) (s : State) : State :=
  if s.PHASE = .fault then answerFaulted s else raiseFault c hdr s

/-- Procedure initialise (40_lifecycle.md R100), the only return from the fault besides hardware reset
(60_exceptions.md R188): a..h, W, BUF and T keep their values. -/
def initialise (s : State) : State :=
  { s with H := IV, LENB := 0, PHASE := .init, ERR := 0, ERRHDR := 0 }

/-! ### Hardware reset (70_reset_and_hazards.md R210, R212) -/

/-- The effect of rst_n low: the reset state, from any state, with the command in progress and its response
abandoned; what the host still offers on its side of the ports is the host's (R212, log 4). -/
def hardwareReset (s : State) : State :=
  { State.reset with rstN := s.rstN, cmdIn := s.cmdIn, plIn := s.plIn, rspReady := s.rspReady }

/-! ### The channels (30_encoding.md R85) -/

/-- The transfer of the response, when the host is ready. -/
def takeResponse (s : State) : State := { s with rspOut := none }

/-- Taking payload for a header of which the bytes `got` are already taken: exactly `plen` bytes in all
(R74, R85); while the host withholds them the engine waits (70_reset_and_hazards.md R218 (a)). -/
def takePayload (hdr : Hdr) (got : List Byte) (s : State) : Fetch :=
  let need := plen hdr - got.length
  let got' := got ++ s.plIn.take need
  let rest := s.plIn.drop need
  if got'.length < plen hdr then .wait { s with plIn := rest, cur := some ⟨hdr, got'⟩ }
  else .command hdr got' { s with plIn := rest, cur := none }

/-- One turn of the channels. Reset first; then an untaken response holds everything (R85); then the command in
progress, or the next header; with none, the engine is idle (00_scope.md R17). -/
def fetch (s : State) : Fetch :=
  if s.rstN = false then .wait (hardwareReset s)
  else if s.rspOut.isSome ∧ s.rspReady = false then .wait s
  else match s.cur with
    | some c => takePayload c.hdr c.got (takeResponse s)
    | none => match s.cmdIn with
      | [] => .wait (takeResponse s)
      | hdr :: rest => takePayload hdr [] { takeResponse s with cmdIn := rest }

/-- The host's side: header and payload placed at the front of what it offers, with nothing that holds the
engine back (log 2). -/
def offerCommand (hdr : Hdr) (payload : List Byte) (s : State) : State :=
  { s with cmdIn := hdr :: s.cmdIn, plIn := payload ++ s.plIn, cur := none, rstN := true, rspReady := true }

end Sys2Proof.Machine
end

