-- ==== Sys2Proof/Machine/Operands.lean ====
section
/-! DEFINITION. Machine/Operands.lean: the operands of the commands: payload as a block, the write position, the length
test, the digest window (30_encoding.md R72, 10_state.md R26, 41_ingest.md R117, 45_readout.md R170). -/

namespace Sys2Proof.Machine

/-- BUFCNT = LENB[5:0] (10_state.md R26). -/
def bufcnt (s : State) : BitVec 6 := s.LENB.extractLsb' 0 6

/-- A 64-byte payload as the block it fills: byte k of the payload at offset k (41_ingest.md R114). -/
def payloadBlock (payload : List Byte) : Vector Byte 64 := Vector.ofFn fun k => payload.getD k.val 0

/-- The test of E_LENOVF: LENB + n > 2^61 - 1 (41_ingest.md R117). -/
def lenOverflows (n : Nat) (s : State) : Bool := decide (s.LENB.toNat + n > Config.lenMax)

/-- The digest window by bytes: digest[j] = byte(H[j div 4], j mod 4) (45_readout.md R170). -/
def digestByte (H : Vector Word 8) (j : Fin 32) : Byte := byteOf (H[j.val / 4]'(by omega)) (j.val % 4)

end Sys2Proof.Machine
end

