-- ==== Sys2Proof/Machine/Schedule.lean ====
section
/-! DEFINITION. Machine/Schedule.lean: message schedule expansion (43_schedule.md R140 to R145). -/

namespace Sys2Proof.Machine

/-- ssig0 (R141): the third term is a shift. -/
def ssig0 (x : Word) : Word := rotr x 7 ^^^ rotr x 18 ^^^ shr x 3

/-- ssig1 (R142): the third term is a shift. -/
def ssig1 (x : Word) : Word := rotr x 17 ^^^ rotr x 19 ^^^ shr x 10

/-- SCHED_LOAD t, t = 0..15 (R143). -/
def schedLoad (t : Fin 16) (s : State) : State := { s with W := s.W.set t.val (memRead t s) }

/-- SCHED_EXP t, t = 16..63 (R144); never issued for a smaller t. -/
def schedExp (t : Fin 64) (s : State) : State :=
  let w := s.W[t.val - 16] + ssig0 s.W[t.val - 15] + s.W[t.val - 7] + ssig1 s.W[t.val - 2]
  { s with W := s.W.set t.val w }

/-- The sixteen loads of `schedule`, in order (R145). -/
def schedLoads (s : State) : State := (List.finRange 16).foldl (fun s t => schedLoad t s) s

/-- The indices 16..63, increasing (R145). -/
def expIndices : List (Fin 64) := (List.finRange 64).drop 16

/-- The forty-eight expansions of `schedule`, in increasing t (R145). -/
def schedExps (s : State) : State := expIndices.foldl (fun s t => schedExp t s) s

/-- schedule(B) for B = BUF (R145). -/
def schedule (s : State) : State := schedExps (schedLoads s)

end Sys2Proof.Machine
end

