-- ==== Sys2Proof/Machine/Compression.lean ====
section
/-! DEFINITION. Machine/Compression.lean: the compression function and its micro-operations (44_compression.md). -/

namespace Sys2Proof.Machine

/-- bsig1 (R151). -/
def bsig1 (x : Word) : Word := rotr x 6 ^^^ rotr x 11 ^^^ rotr x 25

/-- ch (R152). -/
def ch (x y z : Word) : Word := (x &&& y) ^^^ (~~~x &&& z)

/-- bsig0 (R153). -/
def bsig0 (x : Word) : Word := rotr x 2 ^^^ rotr x 13 ^^^ rotr x 22

/-- maj (R154). -/
def maj (x y z : Word) : Word := (x &&& y) ^^^ (x &&& z) ^^^ (y &&& z)

/-- The working registers LOADV loads: (a, .., h) <- (H[0], .., H[7]) (R155). -/
def loadRegs (H : Vector Word 8) : WorkRegs := ⟨H[0], H[1], H[2], H[3], H[4], H[5], H[6], H[7]⟩

/-- LOADV (R155). -/
def loadv (s : State) : State := { s with v := loadRegs s.H, T := 0 }

/-- The simultaneous assignment of ROUND with the round's K and W words (R156). -/
def roundRegs (k w : Word) (v : WorkRegs) : WorkRegs :=
  let t1 := v.h + bsig1 v.e + ch v.e v.f v.g + k + w
  let t2 := bsig0 v.a + maj v.a v.b v.c
  { h := v.g, g := v.f, f := v.e, e := v.d + t1, d := v.c, c := v.b, b := v.a, a := t1 + t2 }

/-- ROUND t, t = 0..63 (R156): reads K[t] and W[t], leaves T = t + 1. -/
def round (t : Fin 64) (s : State) : State :=
  { s with v := roundRegs K[t.val] s.W[t.val] s.v, T := BitVec.ofNat 7 (t.val + 1) }

/-- The sixty-four rounds in increasing t (R157). -/
def rounds (s : State) : State := (List.finRange 64).foldl (fun s t => round t s) s

/-- The sums of FEEDFWD: H[0] with a, .., H[7] with h (R159). -/
def feedSum (H : Vector Word 8) (v : WorkRegs) : Vector Word 8 :=
  #v[H[0] + v.a, H[1] + v.b, H[2] + v.c, H[3] + v.d, H[4] + v.e, H[5] + v.f, H[6] + v.g, H[7] + v.h]

/-- FEEDFWD (R159). -/
def feedfwd (s : State) : State := { s with H := feedSum s.H s.v }

/-- The steps of `compress` in order (R160): `schedule`, LOADV, the sixty-four rounds, FEEDFWD. Irreducible, so that no
proof unfolds a block by accident; Laws/Compress.lean says what it does. -/
@[irreducible] def compressSteps (s : State) : State := feedfwd (rounds (loadv (schedule s)))

/-- compress(BUF[0..63]) (R160): what its steps leave in H, W, a..h and T, the registers they write. That the steps write
nothing else is `compress_eq_steps` of Laws/Compress.lean. -/
def compress (s : State) : State :=
  let u := compressSteps s
  { s with H := u.H, W := u.W, v := u.v, T := u.T }

/-! ### The micro-operations as data (30_encoding.md R79, 70_reset_and_hazards.md R220, R221) -/

/-- One micro-operation of block processing. -/
inductive MicroOp where
  | schedLoad (t : Fin 16)
  | schedExp (t : Fin 64)
  | loadv
  | round (t : Fin 64)
  | feedfwd
  deriving DecidableEq, Repr

/-- The effect of one micro-operation. -/
def runMicroOp : MicroOp → State → State
  | .schedLoad t, s => schedLoad t s
  | .schedExp t, s => schedExp t s
  | .loadv, s => loadv s
  | .round t, s => round t s
  | .feedfwd, s => feedfwd s

/-- The fixed sequence one block takes. -/
def blockMicroOps : List MicroOp :=
  (List.finRange 16).map .schedLoad ++ expIndices.map .schedExp ++ [.loadv] ++
    (List.finRange 64).map .round ++ [.feedfwd]

end Sys2Proof.Machine
end

