-- ==== Sys2Proof/Machine/Ingest.lean ====
section
/-! DEFINITION. Machine/Ingest.lean: WRITE and ABSORB (41_ingest.md R110 to R119). -/

namespace Sys2Proof.Machine

/-- Procedure absorb_byte (R112): store at BUF[BUFCNT], count, and compress when the 64th byte of a block has
just been stored. -/
def absorbByte (b : Byte) (s : State) : State :=
  let s1 := memWrite (bufcnt s).toFin b s
  let s2 := { s1 with LENB := s1.LENB + 1 }
  if bufcnt s2 = 0 then compress s2 else s2

/-- absorb_byte of every payload byte, in payload order (R111). -/
def absorbBytes (payload : List Byte) (s : State) : State := payload.foldl (fun s b => absorbByte b s) s

/-- WRITE (R111). -/
def execWrite (payload : List Byte) (s : State) : Host.Outcome State Fault Refusal :=
  let hdr := headerOf (.write payload)
  if s.PHASE = .fault then .next (answerFaulted s)
  else if s.PHASE = .finalized then .next (raiseFault .E_FINAL hdr s)
  else if lenOverflows payload.length s then .next (raiseFault .E_LENOVF hdr s)
  else .next (respond statusOK 0 (absorbBytes payload { s with PHASE := .absorbing }))

/-- The body of an accepted ABSORB: fill BUF, count 64, compress (R114). -/
def absorbBlock (payload : List Byte) (s : State) : State :=
  compress { s with BUF := payloadBlock payload, LENB := s.LENB + 64 }

/-- ABSORB (R114). -/
def execAbsorb (payload : List Byte) (s : State) : Host.Outcome State Fault Refusal :=
  let hdr := headerOf (.absorb payload)
  if s.PHASE = .fault then .next (answerFaulted s)
  else if payload.length ≠ 64 then .next (raiseFault .E_BLOCKLEN hdr s)
  else if s.PHASE = .finalized then .next (raiseFault .E_FINAL hdr s)
  else if bufcnt s ≠ 0 then .next (raiseFault .E_ALIGN hdr s)
  else if lenOverflows 64 s then .next (raiseFault .E_LENOVF hdr s)
  else .next (respond statusOK 0 (absorbBlock payload { s with PHASE := .absorbing }))

end Sys2Proof.Machine
end

