-- ==== Sys2Proof/Machine/Lifecycle.lean ====
section
/-! DEFINITION. Machine/Lifecycle.lean: INIT, RESET, SRCERR (40_lifecycle.md R100 to R104). -/

namespace Sys2Proof.Machine

/-- INIT (R101): legal in every phase. -/
def execInit (s : State) : Host.Outcome State Fault Refusal := .next (respond statusOK 0 (initialise s))

/-- RESET (R102): exactly the effect of INIT. -/
def execReset (s : State) : Host.Outcome State Fault Refusal := .next (respond statusOK 0 (initialise s))

/-- SRCERR (R103): always the fault E_SRCERR, but in phase FAULT. -/
def execSrcerr (s : State) : Host.Outcome State Fault Refusal :=
  if s.PHASE = .fault then .next (answerFaulted s)
  else .next (raiseFault .E_SRCERR (headerOf .srcerr) s)

end Sys2Proof.Machine
end

