-- ==== Sys2Proof/Machine/Padding.lean ====
section
/-! DEFINITION. Machine/Padding.lean: the padding micro-operations and FINALIZE (42_padding.md R125 to R134). -/

namespace Sys2Proof.Machine

/-- PAD_MARK: BUF[r] <- 0x80 (R127). -/
def padMark (r : Fin 64) (s : State) : State := memWrite r 0x80#8 s

/-- A block with zeros at lo..hi. -/
def zeroRange (lo hi : Nat) (B : Vector Byte 64) : Vector Byte 64 :=
  Vector.ofFn fun k => if lo ≤ k.val ∧ k.val ≤ hi then 0x00#8 else B[k.val]

/-- PAD_ZERO: BUF[k] <- 0x00 for k in lo..hi, none when lo > hi (R127). The byte writes touch distinct bytes, so
their order is free (R128) and they are written at once (log 13). -/
def padZero (lo hi : Nat) (s : State) : State := { s with BUF := zeroRange lo hi s.BUF }

/-- bitlen = 8 * LENB, 64 bits (R129). -/
def bitlen (s : State) : BitVec 64 := s.LENB ++ 0#3

/-- A block with be64 of a length at 56..63. -/
def withLength (x : BitVec 64) (B : Vector Byte 64) : Vector Byte 64 :=
  Vector.ofFn fun k => if h : 56 ≤ k.val then (be64 x)[k.val - 56] else B[k.val]

/-- PAD_LEN: BUF[56 + k] <- be64(8 * LENB)[k] for k in 0..7 (R127, R129). -/
def padLen (s : State) : State := { s with BUF := withLength (bitlen s) s.BUF }

/-- When the remainder leaves no room for the length field, block 1 is compressed without it and block 2 begins
with 56 zero bytes (R126, R127). -/
def padSpill (s : State) : State := padZero 0 55 (compress s)

/-- The blocks of FINALIZE, from the mark to the last compression (R127). -/
def padBlocks (s : State) : State :=
  let r := bufcnt s
  let s1 := padZero (r.toNat + 1) 63 (padMark r.toFin s)
  let s2 := if 56 ≤ r.toNat then padSpill s1 else s1
  compress (padLen s2)

/-- FINALIZE (R127). -/
def execFinalize (s : State) : Host.Outcome State Fault Refusal :=
  if s.PHASE = .fault then .next (answerFaulted s)
  else if s.PHASE = .finalized then .next (raiseFault .E_FINAL (headerOf .finalize) s)
  else .next (respond statusOK 0 { padBlocks { s with PHASE := .padding } with PHASE := .finalized })

end Sys2Proof.Machine
end

