-- ==== Sys2Proof/Machine/Flags.lean ====
section
/-! DEFINITION. Machine/Flags.lean: the views that have no storage: STATUS, the two level outputs, and the engine's side
of the ports (10_state.md R30, R33; 30_encoding.md R84, R85). There are no arithmetic flags (10_state.md R33). -/

namespace Sys2Proof.Machine

/-- The encoding of PHASE (10_state.md R27). -/
def Phase.code : Phase → BitVec 3
  | .init => 0#3
  | .absorbing => 1#3
  | .padding => 2#3
  | .finalized => 3#3
  | .fault => 4#3

/-- STATUS: ERRHDR at 31:16, zero at 15:14, BUFCNT at 13:8, ERR at 7:4, zero at 3, PHASE at 2:0 (10_state.md R30). -/
def statusWord (s : State) : Word :=
  s.ERRHDR ++ (0#2 ++ bufcnt s) ++ (s.ERR ++ (0#1 ++ s.PHASE.code))

/-- o_final = 1 exactly when PHASE = FINALIZED (10_state.md R33). -/
def oFinal (s : State) : Bool := decide (s.PHASE = .finalized)

/-- o_fault = 1 exactly when PHASE = FAULT (10_state.md R33). -/
def oFault (s : State) : Bool := decide (s.PHASE = .fault)

/-- rsp_valid: a response is offered (30_encoding.md R84, R85), and none while reset is asserted
(70_reset_and_hazards.md R210). -/
def rspValid (s : State) : Bool := s.rstN && s.rspOut.isSome

/-- cmd_ready: the engine is idle, the previous response taken, reset not asserted (30_encoding.md R85,
70_reset_and_hazards.md R210, R216). -/
def cmdReady (s : State) : Bool := s.rstN && s.cur.isNone && s.rspOut.isNone

/-- pl_ready: a header is taken and its payload is not complete (30_encoding.md R85). -/
def plReady (s : State) : Bool := s.rstN && s.cur.isSome

end Sys2Proof.Machine
end

