-- ==== Sys2Proof/Machine/Readout.lean ====
section
/-! DEFINITION. Machine/Readout.lean: RDW, RDB, RDSTAT (45_readout.md R170 to R176). -/

namespace Sys2Proof.Machine

/-- RDW i (R172). -/
def execRdw (i : BitVec 8) (s : State) : Host.Outcome State Fault Refusal :=
  let hdr := headerOf (.rdw i)
  if s.PHASE = .fault then .next (answerFaulted s)
  else if h : i.toNat > 7 then .next (raiseFault .E_INDEX hdr s)
  else if s.PHASE ≠ .finalized then .next (raiseFault .E_NODIGEST hdr s)
  else .next (respond statusOK s.H[i.toNat] s)

/-- RDB j (R173). -/
def execRdb (j : BitVec 8) (s : State) : Host.Outcome State Fault Refusal :=
  let hdr := headerOf (.rdb j)
  if s.PHASE = .fault then .next (answerFaulted s)
  else if h : j.toNat > 31 then .next (raiseFault .E_INDEX hdr s)
  else if s.PHASE ≠ .finalized then .next (raiseFault .E_NODIGEST hdr s)
  else .next (respond statusOK ((digestByte s.H ⟨j.toNat, by omega⟩).setWidth 32) s)

/-- RDSTAT (R174): legal in every phase, FAULT among them. -/
def execRdstat (s : State) : Host.Outcome State Fault Refusal := .next (respond statusOK (statusWord s) s)

end Sys2Proof.Machine
end

