-- ==== Sys2Proof/Machine/Dispatch.lean ====
section
/-! DEFINITION. Machine/Dispatch.lean: one arm per command (30_encoding.md R73). -/

namespace Sys2Proof.Machine

def exec (i : Instr) (s : State) : Host.Outcome State Fault Refusal :=
  match i with
  | .init => Sys2Proof.Machine.execInit s
  | .write payload => Sys2Proof.Machine.execWrite payload s
  | .absorb payload => Sys2Proof.Machine.execAbsorb payload s
  | .finalize => Sys2Proof.Machine.execFinalize s
  | .reset => Sys2Proof.Machine.execReset s
  | .rdw idx => Sys2Proof.Machine.execRdw idx s
  | .rdb idx => Sys2Proof.Machine.execRdb idx s
  | .rdstat => Sys2Proof.Machine.execRdstat s
  | .srcerr => Sys2Proof.Machine.execSrcerr s

end Sys2Proof.Machine
end

