-- ==== Sys2Proof/Machine/Step.lean ====
section
/-! DEFINITION. Machine/Step.lean: one step is the complete execution of one command (00_scope.md R8), from the state
before it to the state after it with its response; with no whole command to take, the engine waits (R17). -/

namespace Sys2Proof.Machine

/-- One step (60_exceptions.md R185): take a command from the channels, decode it, execute it. An illegal header
takes its fault here (R185 step 4); every other test of R185 stands in the meanings. -/
def step (s : State) : Host.Outcome State Fault Refusal :=
  match fetch s with
  | .wait t => .next t
  | .command hdr payload t =>
    match decodeCommand hdr payload with
    | .ok i => exec i t
    | .error c => .next (refuseHeader c hdr t)

/-- A table word placed where the next step takes its command: header and payload at the front of the channels, no
command in progress, reset released, the host ready (log 2). -/
def State.withFetchWord (s : State) (nbits w : Nat) : State :=
  offerCommand (tableHeader nbits w) (tablePayload nbits w) s

end Sys2Proof.Machine
end

