-- ==== Sys2Proof/Machine/Assembler.lean ====
section
/-! DEFINITION. Machine/Assembler.lean: the writing syntax of 30_encoding.md R82 and the pseudo-instructions of R83. They
are notation for command streams: the machine does not use them. -/

namespace Sys2Proof.Machine

/-- One lower-case hexadecimal digit. -/
def hexDigit (n : BitVec 4) : String :=
  ["0", "1", "2", "3", "4", "5", "6", "7", "8", "9", "a", "b", "c", "d", "e", "f"].getD n.toNat ""

/-- A byte as two hexadecimal digits, the high one first. -/
def hexByte (b : Byte) : String := hexDigit (b.extractLsb' 4 4) ++ hexDigit (b.extractLsb' 0 4)

/-- The hex-string form of a payload, x"61 62 63" (R82; log 20). -/
def hexString (p : List Byte) : String := "x\"" ++ String.intercalate " " (p.map hexByte) ++ "\""

/-- A command in the syntax of R82. -/
def asm : Instr → String
  | .init => "INIT"
  | .write p => "WRITE " ++ hexString p
  | .absorb p => "ABSORB " ++ hexString p
  | .finalize => "FINALIZE"
  | .reset => "RESET"
  | .rdw i => "RDW " ++ toString i.toNat
  | .rdb j => "RDB " ++ toString j.toNat
  | .rdstat => "RDSTAT"
  | .srcerr => "SRCERR"

/-- The `.hdr` line of R82, which writes any header down. -/
def asmHdr (hdr : Hdr) : String :=
  ".hdr 0x" ++ hexByte (hdr.extractLsb' 8 8) ++ hexByte (hdr.extractLsb' 0 8)

/-- WRITEs of 255 bytes each, the last shorter; `fuel` bounds their number. -/
def writeChunks : Nat → List Byte → List Instr
  | 0, _ => []
  | fuel + 1, p => if p.isEmpty then [] else .write (p.take 255) :: writeChunks fuel (p.drop 255)

/-- WRITEL: a long write of any length (R83). -/
def writel (p : List Byte) : List Instr := if p.isEmpty then [.write []] else writeChunks p.length p

/-- RDDIGEST: RDW 0 to RDW 7 (R83). -/
def rddigest : List Instr := (List.range 8).map fun i => .rdw (BitVec.ofNat 8 i)

/-- RDDIGESTB: RDB 0 to RDB 31 (R83). -/
def rddigestb : List Instr := (List.range 32).map fun j => .rdb (BitVec.ofNat 8 j)

/-- HASH: INIT, WRITEL, FINALIZE, RDDIGEST (R83). -/
def hash (p : List Byte) : List Instr := .init :: (writel p ++ .finalize :: rddigest)

/-- EOS: FINALIZE (R83). -/
def eos : List Instr := [.finalize]

end Sys2Proof.Machine
end

