-- ==== Sys2Proof/Machine/Reference.lean ====
section
/-! DEFINITION. Machine/Reference.lean: the pure functions the spec gives beside its commands: compression as a function
of H and a block (44_compression.md R160) computed with the sixteen-word window of 43_schedule.md R146, padding
(42_padding.md R125), the digest (42_padding.md R131), and the step function and decoder in the form of
60_exceptions.md R185 and 30_encoding.md R78. The machine does not use them: claims compare it with them. -/

namespace Sys2Proof.Machine

/-! ### Compression as a function, W computed on the fly (R146, R160) -/

/-- The sixteen words of a block, big-endian (20_memory.md R52). -/
def blockWords (B : Vector Byte 64) : Vector Word 16 :=
  Vector.ofFn fun t => be32 B[4 * t.val] B[4 * t.val + 1] B[4 * t.val + 2] B[4 * t.val + 3]

/-- The window W[t..t+15] moved on to W[t+1..t+16], by the recurrence of R144. -/
def windowNext (w : Vector Word 16) : Vector Word 16 :=
  Vector.ofFn fun i => if h : i.val < 15 then w[i.val + 1] else w[0] + ssig0 w[1] + w[9] + ssig1 w[14]

/-- One round with the window's first word, and the window moved on. -/
def windowRound (x : WorkRegs × Vector Word 16) (t : Fin 64) : WorkRegs × Vector Word 16 :=
  (roundRegs K[t.val] x.2[0] x.1, windowNext x.2)

/-- compress : (H : 8 words) x (B : 64 bytes) to 8 words (R160). This definition and the three below are irreducible,
as `compressSteps` is. -/
@[irreducible] def compressFn (H : Vector Word 8) (B : Vector Byte 64) : Vector Word 8 :=
  feedSum H ((List.finRange 64).foldl windowRound (loadRegs H, blockWords B)).1

/-! ### Messages, padding, the digest (R110, R125, R131) -/

/-- The 64-byte block k of a byte string. -/
@[irreducible] def blockAt (M : List Byte) (k : Nat) : Vector Byte 64 := Vector.ofFn fun i => M.getD (64 * k + i.val) 0

/-- `compress` applied to the first n blocks of a byte string in order, starting from H. -/
@[irreducible] def hashFrom (H : Vector Word 8) (M : List Byte) (n : Nat) : Vector Word 8 :=
  (List.range n).foldl (fun H k => compressFn H (blockAt M k)) H

/-- The same, starting from IV. -/
@[irreducible] def hashBlocks (M : List Byte) (n : Nat) : Vector Word 8 := hashFrom IV M n

/-- z, the number of zero bytes of padding, in its closed form (R125). -/
def zeroCount (L : Nat) : Nat := if L % 64 ≤ 55 then 55 - L % 64 else 119 - L % 64

/-- The padding of a message of L bytes: 0x80, z zero bytes, be64(8 * L) (R125). -/
def padding (L : Nat) : List Byte :=
  [0x80#8] ++ List.replicate (zeroCount L) 0x00#8 ++ (be64 (BitVec.ofNat 64 (8 * L))).toList

/-- The padded message. -/
def padded (M : List Byte) : List Byte := M ++ padding M.length

/-- The digest of a message: `compress` over every block of the padded message (R131). -/
def digestOf (M : List Byte) : Vector Word 8 := hashBlocks (padded M) ((padded M).length / 64)

/-! ### decode and step as R78 and R185 write them -/

/-- decode (R78), with the payload the header owns. -/
def decodeR78 (hdr : Hdr) (payload : List Byte) : Except Cause Instr :=
  let a := (arg hdr).toNat
  if zeroField hdr ≠ 0 then .error .E_ILLEGAL
  else match (opc hdr).toNat with
    | 0x1 => if a = 0 then .ok .init else .error .E_ILLEGAL
    | 0x2 => .ok (.write payload)
    | 0x3 => if a = 64 then .ok (.absorb payload) else .error .E_BLOCKLEN
    | 0x4 => if a = 0 then .ok .finalize else .error .E_ILLEGAL
    | 0x5 => if a = 0 then .ok .reset else .error .E_ILLEGAL
    | 0x6 => if a ≤ 7 then .ok (.rdw (arg hdr)) else .error .E_INDEX
    | 0x7 => if a ≤ 31 then .ok (.rdb (arg hdr)) else .error .E_INDEX
    | 0x8 => if a = 0 then .ok .rdstat else .error .E_ILLEGAL
    | 0x9 => if a = 0 then .ok .srcerr else .error .E_ILLEGAL
    | _ => .error .E_ILLEGAL

/-- Steps 3 to 7 of R185, for a command that is not INIT, RESET or RDSTAT. -/
def guardedR185 (hdr : Hdr) (d : Except Cause Instr) (s : State) : State :=
  if s.PHASE = .fault then respond statusFaulted 0 s
  else match d with
    | .error c => raiseFault c hdr s
    | .ok .srcerr => raiseFault .E_SRCERR hdr s
    | .ok (.rdw i) =>
      if s.PHASE ≠ .finalized then raiseFault .E_NODIGEST hdr s
      else respond statusOK (s.H.getD i.toNat 0) s
    | .ok (.rdb j) =>
      if s.PHASE ≠ .finalized then raiseFault .E_NODIGEST hdr s
      else respond statusOK ((byteOf (s.H.getD (j.toNat / 4) 0) (j.toNat % 4)).setWidth 32) s
    | .ok (.write p) =>
      if s.PHASE = .finalized then raiseFault .E_FINAL hdr s
      else if s.LENB.toNat + p.length > 2 ^ 61 - 1 then raiseFault .E_LENOVF hdr s
      else respond statusOK 0 (absorbBytes p { s with PHASE := .absorbing })
    | .ok (.absorb p) =>
      if s.PHASE = .finalized then raiseFault .E_FINAL hdr s
      else if s.LENB.toNat % 64 ≠ 0 then raiseFault .E_ALIGN hdr s
      else if s.LENB.toNat + 64 > 2 ^ 61 - 1 then raiseFault .E_LENOVF hdr s
      else respond statusOK 0 (absorbBlock p { s with PHASE := .absorbing })
    | .ok .finalize =>
      if s.PHASE = .finalized then raiseFault .E_FINAL hdr s
      else respond statusOK 0 { padBlocks { s with PHASE := .padding } with PHASE := .finalized }
    | .ok .init => respond statusOK 0 (initialise s)
    | .ok .reset => respond statusOK 0 (initialise s)
    | .ok .rdstat => respond statusOK (statusWord s) s

/-- step(s, hdr, p) (R185): the first test that fires decides. -/
def stepR185 (hdr : Hdr) (payload : List Byte) (s : State) : State :=
  match decodeR78 hdr payload with
  | .ok .init => respond statusOK 0 (initialise s)
  | .ok .reset => respond statusOK 0 (initialise s)
  | .ok .rdstat => respond statusOK (statusWord s) s
  | d => guardedR185 hdr d s

end Sys2Proof.Machine
end

