-- ==== Sys2Proof/Safety.lean ====
section
/-! DEFINITION. Safety.lean: the terms claims use: the invariants of 10_state.md R36, the message a state has absorbed
(41_ingest.md R110), what two states must share to be indistinguishable (10_state.md R35), and runs of commands. -/

namespace Sys2Proof.Machine

/-- What holds between any two commands (10_state.md R36 (a) to (c)), with the ranges of T (R29), of the response
(30_encoding.md R80) and of a command in progress (30_encoding.md R85). -/
structure State.Inv (s : State) : Prop where
  /-- PHASE is one of 0, 1, 3, 4 (R36 (a)). -/
  phase : s.PHASE ≠ .padding
  /-- PHASE = 0 implies LENB = 0 and H = IV (R36 (b)). -/
  fresh : s.PHASE = .init → s.LENB = 0 ∧ s.H = IV
  /-- ERR = 0 exactly when PHASE is not 4 (R36 (c)). -/
  err : s.ERR = 0 ↔ s.PHASE ≠ .fault
  /-- ERR is at most 8 (R36 (c)). -/
  errRange : s.ERR.toNat ≤ 8
  /-- ERRHDR = 0 when PHASE is not 4 (R36 (c)). -/
  errHdr : s.PHASE ≠ .fault → s.ERRHDR = 0
  /-- T is 0..64 (R29). -/
  round : s.T.toNat ≤ 64
  /-- A response has a status 0x00..0x09, and data 0 when it is not OK (R80). -/
  response : ∀ r, s.rspOut = some r → r.status.toNat ≤ 9 ∧ (r.status ≠ statusOK → r.data = 0)
  /-- A command in progress lacks payload, and no response is offered beside it (R85). -/
  inProgress : ∀ c, s.cur = some c → c.got.length < plen c.hdr ∧ s.rspOut = none

/-- State s is what absorbing the message M since the last initialise leaves (10_state.md R36 (d)): LENB is the length of
M, H is `compress` over its whole blocks, BUF[0..BUFCNT-1] are its last BUFCNT bytes. -/
structure State.Absorbed (M : List Byte) (s : State) : Prop where
  len : s.LENB.toNat = M.length
  hash : s.H = hashBlocks M (M.length / 64)
  tail : ∀ k : Fin 64, k.val < M.length % 64 → s.BUF[k.val] = M.getD (64 * (M.length / 64) + k.val) 0

/-- The bytes waiting in BUF, BUF[0..BUFCNT-1] (10_state.md R26). -/
def waiting (s : State) : List Byte := s.BUF.toList.take (s.LENB.toNat % 64)

/-- Two states that agree on everything but a..h, W, T and the bytes BUF[k] with k >= BUFCNT (10_state.md R35, R36 (e)). -/
structure State.SameVisible (s t : State) : Prop where
  H : s.H = t.H
  LENB : s.LENB = t.LENB
  PHASE : s.PHASE = t.PHASE
  ERR : s.ERR = t.ERR
  ERRHDR : s.ERRHDR = t.ERRHDR
  waiting : ∀ k : Fin 64, k.val < s.LENB.toNat % 64 → s.BUF[k.val] = t.BUF[k.val]
  rstN : s.rstN = t.rstN
  cmdIn : s.cmdIn = t.cmdIn
  plIn : s.plIn = t.plIn
  cur : s.cur = t.cur
  rspOut : s.rspOut = t.rspOut
  rspReady : s.rspReady = t.rspReady

/-- The ports are as they were, but for the response (exec touches no other port). -/
structure State.SamePorts (s t : State) : Prop where
  rstN : s.rstN = t.rstN
  cmdIn : s.cmdIn = t.cmdIn
  plIn : s.plIn = t.plIn
  cur : s.cur = t.cur
  rspReady : s.rspReady = t.rspReady

/-- The commands that carry message bytes. -/
def isIngest : Instr → Bool
  | .write _ => true
  | .absorb _ => true
  | .init => false
  | .finalize => false
  | .reset => false
  | .rdw _ => false
  | .rdb _ => false
  | .rdstat => false
  | .srcerr => false

/-- The concatenation of the payloads of a list of commands (41_ingest.md R110). -/
def messageOf (is : List Instr) : List Byte := is.flatMap payloadOf

/-- A list of commands executed in order, with the response of each; `none` if one of them stops. -/
def runAll : List Instr → State → Option (State × List Response)
  | [], s => some (s, [])
  | i :: is, s =>
    match exec i s with
    | .next t =>
      match t.rspOut, runAll is t with
      | some r, some (u, rs) => some (u, r :: rs)
      | _, _ => none
    | .fault _ => none
    | .refused _ => none

/-- Every response is OK: every command of the run was accepted. -/
def allOK (rs : List Response) : Bool := rs.all fun r => r.status == statusOK

/-- The headers that decode to a command that executes, by number (30_encoding.md R73). -/
abbrev legalHeader (n : Nat) : Prop :=
  n = 0x1000 ∨ (0x2000 ≤ n ∧ n ≤ 0x20FF) ∨ n = 0x3040 ∨ n = 0x4000 ∨ n = 0x5000 ∨
    (0x6000 ≤ n ∧ n ≤ 0x6007) ∨ (0x7000 ≤ n ∧ n ≤ 0x701F) ∨ n = 0x8000 ∨ n = 0x9000

/-- The headers of RDW and RDB whose index is out of range (30_encoding.md R76). -/
abbrev indexHeader (n : Nat) : Prop := (0x6008 ≤ n ∧ n ≤ 0x60FF) ∨ (0x7020 ≤ n ∧ n ≤ 0x70FF)

/-- The headers of ABSORB whose block has the wrong size (30_encoding.md R76). -/
abbrev lengthHeader (n : Nat) : Prop := 0x3000 ≤ n ∧ n ≤ 0x30FF ∧ n ≠ 0x3040

/-- The transition table of PHASE (60_exceptions.md R191), row by command and column by PHASE, for well-formed commands;
PADDING is no column, being never the phase between two commands. -/
def phaseTable (i : Instr) (p : Phase) : List Phase :=
  match i, p with
  | .init, _ => [.init]
  | .reset, _ => [.init]
  | .rdstat, p => [p]
  | .write _, .init => [.absorbing]
  | .write _, .absorbing => [.absorbing, .fault]
  | .absorb q, .init => if q.length = 64 then [.absorbing] else [.fault]
  | .absorb q, .absorbing => if q.length = 64 then [.absorbing, .fault] else [.fault]
  | .finalize, .init => [.finalized]
  | .finalize, .absorbing => [.finalized]
  | .rdw i, .finalized => if i.toNat ≤ 7 then [.finalized] else [.fault]
  | .rdb j, .finalized => if j.toNat ≤ 31 then [.finalized] else [.fault]
  | _, _ => [.fault]

/-- Block 1 of padding by the layout of 42_padding.md R134: the waiting bytes, 0x80, then zeros, and in the one-block case
(r <= 55) the length field at 56..63. -/
def padBlockOne (s : State) : Vector Byte 64 :=
  let r := s.LENB.toNat % 64
  Vector.ofFn fun k =>
    if k.val < r then s.BUF[k.val]
    else if k.val = r then 0x80#8
    else if h : 56 ≤ k.val ∧ r ≤ 55 then (be64 (BitVec.ofNat 64 (8 * s.LENB.toNat)))[k.val - 56]
    else 0x00#8

/-- Block 2 of padding (R134): 56 zeros and the length field. -/
def padBlockTwo (s : State) : Vector Byte 64 :=
  Vector.ofFn fun k =>
    if h : 56 ≤ k.val then (be64 (BitVec.ofNat 64 (8 * s.LENB.toNat)))[k.val - 56] else 0x00#8

end Sys2Proof.Machine
end

