-- ==== Sys2Proof/Certificates/Slice0/Obligations.lean ====
section
/-! DEFINITION. Obligations.lean: the statements for the provers, by the spec's files. -/

open Sys2Proof Sys2Proof.Machine

/-! ### 00_scope.md: primitives -/

/-- R14, every primitive: add32 is the sum modulo 2^32; and, xor, not are bitwise; rotr moves bit (i + n) mod 32 to bit
i; shr divides by 2^n; be32, byte and be64 have the most significant byte first. -/
def Obligations.PrimitivesMoveBits : Prop :=
  (∀ x y : Word, (x + y).toNat = (x.toNat + y.toNat) % 2 ^ 32 ∧ (~~~x).toNat = 0xFFFFFFFF - x.toNat ∧
    ∀ i : Nat, (x &&& y).getLsbD i = (x.getLsbD i && y.getLsbD i) ∧ (x ^^^ y).getLsbD i = (x.getLsbD i ^^ y.getLsbD i)) ∧
  (∀ (x : Word) (n i : Nat), 1 ≤ n → n ≤ 31 → i < 32 →
    (rotr x n).getLsbD i = x.getLsbD ((i + n) % 32) ∧ (shr x n).toNat = x.toNat / 2 ^ n) ∧
  (∀ b0 b1 b2 b3 : Byte,
    (be32 b0 b1 b2 b3).toNat = b0.toNat * 2 ^ 24 + b1.toNat * 2 ^ 16 + b2.toNat * 2 ^ 8 + b3.toNat) ∧
  (∀ (w : Word) (k : Fin 4), (byteOf w k.val).toNat = w.toNat / 2 ^ (24 - 8 * k.val) % 256) ∧
  (∀ w : Word, be32 (byteOf w 0) (byteOf w 1) (byteOf w 2) (byteOf w 3) = w) ∧
  (∀ (x : BitVec 64) (k : Fin 8), (be64 x)[k.val].toNat = x.toNat / 2 ^ (56 - 8 * k.val) % 256)

/-! ### 10_state.md: reset values, ROMs, invariants, hidden state -/

/-- R37: every register after hardware reset (from any state, and in State.reset) and after initialise. That a..h, W and
BUF are zero after hardware reset is the model's choice (log 3) and is not stated. -/
def Obligations.ResetValues : Prop :=
  ∀ s : State,
    (∀ r : State, r = State.reset ∨ r = hardwareReset s →
      r.H = IV ∧ r.LENB = 0 ∧ r.PHASE = .init ∧ r.ERR = 0 ∧ r.ERRHDR = 0 ∧ r.T = 0 ∧
      statusWord r = 0 ∧ oFinal r = false ∧ oFault r = false) ∧
    (∀ i : Instr, i = .init ∨ i = .reset → ∃ r, exec i s = .next r ∧
      r.H = IV ∧ r.LENB = 0 ∧ r.PHASE = .init ∧ r.ERR = 0 ∧ r.ERRHDR = 0 ∧ r.T = s.T ∧ r.v = s.v ∧
      r.W = s.W ∧ r.BUF = s.BUF ∧ statusWord r = 0 ∧ oFinal r = false ∧ oFault r = false)

/-- R32: K[t] is the first 32 bits of the fractional part of the cube root of the t-th prime: with n the integer part of
2^32 times that root, K[t] = n mod 2^32. -/
def Obligations.RoundConstantsAreCubeRoots : Prop :=
  ∀ t : Fin 64, ∃ n : Nat,
    n ^ 3 ≤ Nat.nth Nat.Prime t.val * 2 ^ 96 ∧ Nat.nth Nat.Prime t.val * 2 ^ 96 < (n + 1) ^ 3 ∧
    K[t.val].toNat = n % 2 ^ 32

/-- R34: IV[i] is the first 32 bits of the fractional part of the square root of the i-th prime. -/
def Obligations.InitialValuesAreSquareRoots : Prop :=
  ∀ i : Fin 8, ∃ n : Nat,
    n ^ 2 ≤ Nat.nth Nat.Prime i.val * 2 ^ 64 ∧ Nat.nth Nat.Prime i.val * 2 ^ 64 < (n + 1) ^ 2 ∧
    IV[i.val].toNat = n % 2 ^ 32

/-- R36 (a) to (c) with the ranges of T, of the response and of a command in progress hold at reset. -/
def Obligations.ResetMeetsInvariant : Prop := State.reset.Inv

/-- R36 (a) to (c) and those ranges are kept by every step, from every state that meets them. -/
def Obligations.StepKeepsInvariant : Prop :=
  ∀ s t : State, s.Inv → step s = .next t → t.Inv

/-- R35, R36 (e): a..h, W, T and the bytes BUF[k] with k >= BUFCNT are unobservable. Two states that differ only there step
to two states that differ only there, so they give the same responses for ever. No value that the model chose for
a..h, W or BUF at reset (log 3) is used. -/
def Obligations.HiddenStateUnobservable : Prop :=
  ∀ s t : State, s.SameVisible t →
    ∃ s' t' : State, step s = .next s' ∧ step t = .next t' ∧ s'.SameVisible t'

/-- R25: LENB is cleared by INIT and RESET, grows by the payload's length in an accepted WRITE or ABSORB, and is left
alone by everything else; it never passes 2^61 - 1. -/
def Obligations.LengthCounter : Prop :=
  ∀ (i : Instr) (s t : State), exec i s = .next t →
    ((i = .init ∨ i = .reset) → t.LENB = 0) ∧
    (isIngest i = true → t.rspOut = some ⟨statusOK, 0⟩ →
      t.LENB.toNat = s.LENB.toNat + (payloadOf i).length ∧ s.LENB.toNat + (payloadOf i).length ≤ 2 ^ 61 - 1) ∧
    (isIngest i = true → t.rspOut ≠ some ⟨statusOK, 0⟩ → t.LENB = s.LENB) ∧
    (isIngest i = false → i ≠ .init → i ≠ .reset → t.LENB = s.LENB)

/-- R21, R113, R119, R160: H after every command, so that only initialise and `compress` write it. INIT and RESET make it
IV; an accepted WRITE or ABSORB makes it `compress` of every block that the waiting bytes and the payload fill, in order
from the old H (none filled: the old H); an accepted FINALIZE makes it `compress` of its one or two padded blocks; a
refused WRITE, ABSORB or FINALIZE and every other command leave it. -/
def Obligations.HashStateWriters : Prop :=
  ∀ (i : Instr) (s t : State), exec i s = .next t →
    ((i = .init ∨ i = .reset) → t.H = IV) ∧
    (isIngest i = true → t.rspOut = some ⟨statusOK, 0⟩ →
      t.H = hashFrom s.H (waiting s ++ payloadOf i) ((s.LENB.toNat % 64 + (payloadOf i).length) / 64)) ∧
    (i = .finalize → t.rspOut = some ⟨statusOK, 0⟩ →
      t.H = if s.LENB.toNat % 64 ≤ 55 then compressFn s.H (padBlockOne s)
        else compressFn (compressFn s.H (padBlockOne s)) (padBlockTwo s)) ∧
    ((isIngest i = true ∨ i = .finalize) → t.rspOut ≠ some ⟨statusOK, 0⟩ → t.H = s.H) ∧
    (isIngest i = false → i ≠ .init → i ≠ .reset → i ≠ .finalize → t.H = s.H)

/-- R30, R174: RDSTAT is legal in every phase, changes nothing, and returns STATUS field by field, PHASE in the encoding of
R27: 0 INIT, 1 ABSORBING, 2 PADDING, 3 FINALIZED, 4 FAULT. -/
def Obligations.RdstatReturnsStatusFields : Prop :=
  ∀ s : State, ∃ w : Word,
    exec .rdstat s = .next { s with rspOut := some ⟨0x00#8, w⟩ } ∧
    w.extractLsb' 0 3 = s.PHASE.code ∧
    (s.PHASE = .init → w.extractLsb' 0 3 = 0#3) ∧ (s.PHASE = .absorbing → w.extractLsb' 0 3 = 1#3) ∧
    (s.PHASE = .padding → w.extractLsb' 0 3 = 2#3) ∧ (s.PHASE = .finalized → w.extractLsb' 0 3 = 3#3) ∧
    (s.PHASE = .fault → w.extractLsb' 0 3 = 4#3) ∧
    w.extractLsb' 3 1 = 0#1 ∧ w.extractLsb' 4 4 = s.ERR ∧
    w.extractLsb' 8 6 = s.LENB.extractLsb' 0 6 ∧ w.extractLsb' 14 2 = 0#2 ∧ w.extractLsb' 16 16 = s.ERRHDR

/-- R33: o_final = 1 exactly when PHASE = 3 and o_fault = 1 exactly when PHASE = 4; INIT and RESET clear both, an accepted
FINALIZE sets o_final, a fault sets o_fault and clears o_final. -/
def Obligations.LevelOutputsFollowPhase : Prop :=
  (∀ s : State, (oFinal s = true ↔ s.PHASE.code = 3#3) ∧ (oFault s = true ↔ s.PHASE.code = 4#3)) ∧
  (∀ s t : State, exec .init s = .next t ∨ exec .reset s = .next t → oFinal t = false ∧ oFault t = false) ∧
  (∀ s t : State, exec .finalize s = .next t → t.rspOut = some ⟨statusOK, 0⟩ → oFinal t = true ∧ oFault t = false) ∧
  (∀ (c : Cause) (hdr : Hdr) (s : State), oFinal (raiseFault c hdr s) = false ∧ oFault (raiseFault c hdr s) = true)

/-! ### 30_encoding.md: headers, decoding, responses, handshake -/

/-- Every well-formed command, with every operand, is what its byte-serial form decodes to, whatever follows it. -/
def Obligations.DecodeEncodeRoundTrip : Prop :=
  ∀ (i : Instr) (rest : List Byte), i.wf = true → decode (encode i ++ rest) = .ok (i, rest)

/-- Every byte string that decodes is the byte-serial form of the command it decodes to, followed by the rest. -/
def Obligations.EncodeDecodeRoundTrip : Prop :=
  ∀ (bs : List Byte) (i : Instr) (rest : List Byte),
    decode bs = .ok (i, rest) → i.wf = true ∧ encode i ++ rest = bs

/-- Headers written out from R73, and illegal ones (rows of 95_test_vectors.md section 6), decode to their command or to
E_ILLEGAL. That 30 02 .. decodes to an ABSORB of two bytes is the model's form, in which the meaning of ABSORB raises
E_BLOCKLEN (log 7); R78 and section 6 give Bad(E_BLOCKLEN) for that header while decoding. -/
def Obligations.DecodeSampleHeaders : Prop :=
  decode [0x10#8, 0x00#8] = .ok (.init, []) ∧
  decode [0x20#8, 0x03#8, 0x61#8, 0x62#8, 0x63#8] = .ok (.write [0x61#8, 0x62#8, 0x63#8], []) ∧
  decode [0x30#8, 0x02#8, 0x61#8, 0x62#8, 0x40#8] = .ok (.absorb [0x61#8, 0x62#8], [0x40#8]) ∧
  decode [0x40#8, 0x00#8] = .ok (.finalize, []) ∧ decode [0x50#8, 0x00#8] = .ok (.reset, []) ∧
  decode [0x60#8, 0x07#8] = .ok (.rdw 7#8, []) ∧ decode [0x70#8, 0x1f#8] = .ok (.rdb 31#8, []) ∧
  decode [0x80#8, 0x00#8] = .ok (.rdstat, []) ∧ decode [0x90#8, 0x00#8] = .ok (.srcerr, []) ∧
  decode [0x10#8, 0x01#8] = .error (.bad 0x1001#16 .E_ILLEGAL) ∧
  decode [0x21#8, 0x01#8, 0x00#8] = .error (.bad 0x2101#16 .E_ILLEGAL) ∧
  decode [0x00#8, 0x00#8] = .error (.bad 0x0000#16 .E_ILLEGAL) ∧
  decode [0xff#8, 0xff#8] = .error (.bad 0xffff#16 .E_ILLEGAL)

/-- R81: the decoder reads the opcode table by mask and match. A header that decodes matches the row of its command, one that
does not matches no row and is E_ILLEGAL, and no header matches two rows. That a header which matches a row always decodes
is the model's choice (log 7): R81 tests ARG against `legal_arg` after the match and so rejects 0x6008 with E_INDEX and
0x3000 with E_BLOCKLEN, which this model does in the meanings of RDW, RDB and ABSORB. -/
def Obligations.DecoderReadsOpcodeTable : Prop :=
  (∀ (hdr : Hdr) (p : List Byte) (i : Instr), decodeCommand hdr p = .ok i →
    ∃ row ∈ opcodeRows, row.mnemonic = mnemonicOf i ∧ hdr &&& row.mask = row.pattern) ∧
  (∀ (hdr : Hdr) (p : List Byte) (c : Cause), decodeCommand hdr p = .error c →
    c = .E_ILLEGAL ∧ ∀ row ∈ opcodeRows, hdr &&& row.mask ≠ row.pattern) ∧
  (∀ (hdr : Hdr), ∀ r1 ∈ opcodeRows, ∀ r2 ∈ opcodeRows,
    hdr &&& r1.mask = r1.pattern → hdr &&& r2.mask = r2.pattern → r1 = r2)

/-- R73, R76, R182: the classification of every header by its number: which decode to a command, which are out of range
(E_INDEX), which are blocks of the wrong size (E_BLOCKLEN); every other one is illegal (E_ILLEGAL). -/
def Obligations.HeaderClassification : Prop :=
  ∀ (hdr : Hdr) (p : List Byte),
    (legalHeader hdr.toNat → ∃ i, decodeR78 hdr p = .ok i) ∧
    (indexHeader hdr.toNat → decodeR78 hdr p = .error .E_INDEX) ∧
    (lengthHeader hdr.toNat → decodeR78 hdr p = .error .E_BLOCKLEN) ∧
    (¬legalHeader hdr.toNat → ¬indexHeader hdr.toNat → ¬lengthHeader hdr.toNat → decodeR78 hdr p = .error .E_ILLEGAL)

/-- R74: the encoded length is 2 + plen, at least 2 and at most 257 bytes; plen does not depend on ZERO. -/
def Obligations.CommandLength : Prop :=
  (∀ i : Instr, i.wf = true →
    (encode i).length = 2 + plen (headerOf i) ∧ 2 ≤ (encode i).length ∧ (encode i).length ≤ 257) ∧
  (∀ (o z : BitVec 4) (a : BitVec 8), plen (o ++ z ++ a) = if o = 2#4 ∨ o = 3#4 then a.toNat else 0)

/-- One step runs the decoded command: when reset is released, no untaken response holds the engine, no command is in
progress and the channels offer a whole command, the step is exec of it on the state with the command and the previous
response taken; for an illegal header it is the refusal of that header. -/
def Obligations.StepRunsDecodedCommand : Prop :=
  (∀ (s : State) (i : Instr) (hdrs : List Hdr) (more : List Byte),
    i.wf = true → s.rstN = true → (s.rspOut = none ∨ s.rspReady = true) → s.cur = none →
    s.cmdIn = headerOf i :: hdrs → s.plIn = payloadOf i ++ more →
    step s = exec i { s with cmdIn := hdrs, plIn := more, rspOut := none }) ∧
  (∀ (s : State) (hdr : Hdr) (hdrs : List Hdr) (p more : List Byte) (c : Cause),
    s.rstN = true → (s.rspOut = none ∨ s.rspReady = true) → s.cur = none →
    s.cmdIn = hdr :: hdrs → s.plIn = p ++ more → p.length = plen hdr → decodeCommand hdr p = .error c →
    step s = .next (refuseHeader c hdr { s with cmdIn := hdrs, plIn := more, rspOut := none }))

/-- R80, R185: every command has exactly one response, with status 0x00..0x09 and data 0 when it is not OK; no command
stops the engine. As a byte string the response is five bytes: the status, then the data, most significant byte first. -/
def Obligations.EveryCommandAnswers : Prop :=
  ∀ (i : Instr) (s : State), ∃ (t : State) (r : Response),
    exec i s = .next t ∧ t.rspOut = some r ∧ r.status.toNat ≤ 9 ∧ (r.status ≠ statusOK → r.data = 0) ∧ s.SamePorts t ∧
    ∃ b0 b1 b2 b3 : Byte, responseBytes r = [r.status, b0, b1, b2, b3] ∧
      r.data.toNat = b0.toNat * 2 ^ 24 + b1.toNat * 2 ^ 16 + b2.toNat * 2 ^ 8 + b3.toNat

/-- R85, R17: an untaken response holds the engine; with nothing else offered the transfer of the response is all that
happens; and an idle engine does nothing. -/
def Obligations.EngineWaitsForHost : Prop :=
  (∀ s : State, s.rstN = true → s.rspOut ≠ none → s.rspReady = false → step s = .next s) ∧
  (∀ s : State, s.rstN = true → s.rspOut ≠ none → s.rspReady = true → s.cur = none → s.cmdIn = [] →
    step s = .next { s with rspOut := none }) ∧
  (∀ s : State, s.rstN = true → s.rspOut = none → s.cur = none → s.cmdIn = [] → step s = .next s)

/-- R84, R85, R216: the engine's side of the handshake. cmd_ready, pl_ready and rsp_valid say, with reset released, that the
engine is idle with the last response taken, that a payload is incomplete, that a response is offered; in a state that
meets the invariant exactly one of them is high, and under reset none. A step takes a header only when cmd_ready is high,
or becomes so by the transfer of the response in that step (the model makes both in one step, log 6); then cmd_ready is
low until the transfer of the command's response. A step takes payload only when pl_ready is high or it took the header.
What is offered to a high cmd_ready or pl_ready is taken. -/
def Obligations.PortHandshake : Prop :=
  (∀ s : State,
    (cmdReady s = true ↔ s.rstN = true ∧ s.cur = none ∧ s.rspOut = none) ∧
    (plReady s = true ↔ s.rstN = true ∧ s.cur ≠ none) ∧ (rspValid s = true ↔ s.rstN = true ∧ s.rspOut ≠ none) ∧
    (s.Inv → s.rstN = true → (cmdReady s).toNat + (plReady s).toNat + (rspValid s).toNat = 1)) ∧
  (∀ s t : State, step s = .next t →
    (t.cmdIn = s.cmdIn ∨ ∃ hdr : Hdr, s.cmdIn = hdr :: t.cmdIn ∧ cmdReady t = false ∧
      (cmdReady s = true ∨ (rspValid s = true ∧ s.rspReady = true ∧ cmdReady (takeResponse s) = true))) ∧
    (cmdReady s = false → cmdReady t = true → rspValid s = true ∧ s.rspReady = true) ∧
    (t.plIn = s.plIn ∨ plReady s = true ∨ (s.rstN = true ∧ t.cmdIn ≠ s.cmdIn)) ∧ t.plIn <:+ s.plIn ∧
    (cmdReady s = true → t.cmdIn = s.cmdIn.tail) ∧
    (s.Inv → plReady s = true → s.plIn ≠ [] → t.plIn.length < s.plIn.length))

/-- R218 (a), R85: while the host withholds payload the engine takes what is there and waits: no register changes and no
response is offered; with nothing more offered, a further step changes nothing; when the rest arrives, the step
executes the command with the bytes in order. -/
def Obligations.WithheldPayloadStalls : Prop :=
  ∀ (s : State) (hdr : Hdr) (hdrs : List Hdr) (p q more : List Byte),
    s.rstN = true → s.rspOut = none → s.cur = none → s.cmdIn = hdr :: hdrs → s.plIn = p →
    p.length < plen hdr → p.length + q.length = plen hdr →
    let w : State := { s with cmdIn := hdrs, plIn := [], cur := some ⟨hdr, p⟩ }
    step s = .next w ∧ step w = .next w ∧
    step { w with plIn := q ++ more } = .next (stepR185 hdr (p ++ q) { w with plIn := more, cur := none })

/-- R118, R74: whatever becomes of a command, the engine takes its header and exactly plen payload bytes. -/
def Obligations.FramingIsKept : Prop :=
  ∀ (s : State) (hdr : Hdr) (hdrs : List Hdr) (p more : List Byte),
    s.rstN = true → (s.rspOut = none ∨ s.rspReady = true) → s.cur = none →
    s.cmdIn = hdr :: hdrs → s.plIn = p ++ more → p.length = plen hdr →
    ∃ t : State, step s = .next t ∧ t.cmdIn = hdrs ∧ t.plIn = more ∧ t.cur = none ∧ t.rspOut ≠ none

/-! ### 40_lifecycle.md -/

/-- R100, R101, R102: INIT and RESET, from every state. -/
def Obligations.InitAndResetInitialise : Prop :=
  ∀ s : State, ∀ i : Instr, i = .init ∨ i = .reset →
    exec i s = .next { s with H := IV, LENB := 0, PHASE := .init, ERR := 0#4, ERRHDR := 0x0000#16,
                              rspOut := some ⟨0x00#8, 0#32⟩ }

/-- R103: SRCERR always raises E_SRCERR, but in phase FAULT, where it answers E_FAULTED. -/
def Obligations.SrcerrAlwaysFaults : Prop :=
  ∀ s : State,
    (s.PHASE ≠ .fault → exec .srcerr s = .next { s with ERR := 7#4, ERRHDR := 0x9000#16, PHASE := .fault,
                                                        rspOut := some ⟨0x07#8, 0#32⟩ }) ∧
    (s.PHASE = .fault → exec .srcerr s = .next { s with rspOut := some ⟨0x09#8, 0#32⟩ })

/-! ### 41_ingest.md -/

/-- R111: an accepted WRITE completes, and its frame: LENB grows by n, PHASE is ABSORBING, the response is OK; ERR and
ERRHDR and the ports are untouched; every byte of BUF outside the n stored offsets (LENB + k) mod 64 is unchanged; and
while no block is completed H, a..h, W and T are unchanged and the bytes stand in payload order from BUFCNT on. -/
def Obligations.WriteAcceptsAndFrame : Prop :=
  ∀ (s : State) (p : List Byte), (Instr.write p).wf = true → s.PHASE ≠ .fault → s.PHASE ≠ .finalized →
    s.LENB.toNat + p.length ≤ 2 ^ 61 - 1 →
    ∃ t : State, exec (.write p) s = .next t ∧ t.rspOut = some ⟨0x00#8, 0#32⟩ ∧ t.PHASE = .absorbing ∧
      t.LENB.toNat = s.LENB.toNat + p.length ∧ t.ERR = s.ERR ∧ t.ERRHDR = s.ERRHDR ∧ s.SamePorts t ∧
      (∀ j : Fin 64, (∀ k < p.length, (s.LENB.toNat + k) % 64 ≠ j.val) → t.BUF[j.val] = s.BUF[j.val]) ∧
      (s.LENB.toNat % 64 + p.length < 64 →
        t.H = s.H ∧ t.v = s.v ∧ t.W = s.W ∧ t.T = s.T ∧
        ∀ j : Fin 64, s.LENB.toNat % 64 ≤ j.val → j.val < s.LENB.toNat % 64 + p.length →
          t.BUF[j.val] = p.getD (j.val - s.LENB.toNat % 64) 0)

/-- R111, R112: a WRITE of one byte stores it at BUF[BUFCNT], counts it, and compresses exactly when it is the 64th of its
block. -/
def Obligations.WriteOneByte : Prop :=
  ∀ (s : State) (b : Byte), s.PHASE ≠ .fault → s.PHASE ≠ .finalized → s.LENB.toNat < 2 ^ 61 - 1 →
    ∃ t : State, exec (.write [b]) s = .next t ∧ t.rspOut = some ⟨0x00#8, 0#32⟩ ∧
      t.LENB.toNat = s.LENB.toNat + 1 ∧
      t.BUF[s.LENB.toNat % 64]'(Nat.mod_lt _ (by decide)) = b ∧
      (∀ j : Fin 64, j.val ≠ s.LENB.toNat % 64 → t.BUF[j.val] = s.BUF[j.val]) ∧
      t.H = if s.LENB.toNat % 64 = 63 then compressFn s.H t.BUF else s.H

/-- R124: a WRITE of p followed by q is the WRITE of p followed by the WRITE of q. -/
def Obligations.WriteSplits : Prop :=
  ∀ (s : State) (p q : List Byte), s.PHASE ≠ .fault → s.PHASE ≠ .finalized →
    s.LENB.toNat + p.length + q.length ≤ 2 ^ 61 - 1 →
    ∃ t u : State, exec (.write p) s = .next t ∧ exec (.write q) t = .next u ∧ exec (.write (p ++ q)) s = .next u

/-- R116, R115: the zero-length WRITE. -/
def Obligations.ZeroLengthWrite : Prop :=
  ∀ s : State,
    (s.PHASE = .init ∨ s.PHASE = .absorbing →
      exec (.write []) s = .next { s with PHASE := .absorbing, rspOut := some ⟨0x00#8, 0#32⟩ }) ∧
    (s.PHASE = .finalized → exec (.write []) s = .next { s with ERR := 5#4, ERRHDR := 0x2000#16, PHASE := .fault,
                                                                rspOut := some ⟨0x05#8, 0#32⟩ }) ∧
    (s.PHASE = .fault → exec (.write []) s = .next { s with rspOut := some ⟨0x09#8, 0#32⟩ })

/-- R114: an accepted ABSORB completes: BUF is the payload, LENB grows by 64, H is one compression, T is 64, PHASE is
ABSORBING; ERR, ERRHDR and the ports are untouched. -/
def Obligations.AbsorbAcceptsAndFrame : Prop :=
  ∀ (s : State) (p : List Byte), p.length = 64 → s.PHASE ≠ .fault → s.PHASE ≠ .finalized →
    s.LENB.toNat % 64 = 0 → s.LENB.toNat + 64 ≤ 2 ^ 61 - 1 →
    ∃ t : State, exec (.absorb p) s = .next t ∧ t.rspOut = some ⟨0x00#8, 0#32⟩ ∧ t.PHASE = .absorbing ∧
      t.LENB.toNat = s.LENB.toNat + 64 ∧ (∀ k : Fin 64, t.BUF[k.val] = p.getD k.val 0) ∧
      t.H = compressFn s.H t.BUF ∧ t.T = 64#7 ∧ t.ERR = s.ERR ∧ t.ERRHDR = s.ERRHDR ∧ s.SamePorts t

/-- R124, R114: an accepted ABSORB has exactly the effect of the WRITE of the same 64 bytes. -/
def Obligations.AbsorbEqualsWrite : Prop :=
  ∀ (s : State) (p : List Byte), p.length = 64 → s.PHASE ≠ .fault → s.PHASE ≠ .finalized →
    s.LENB.toNat % 64 = 0 → s.LENB.toNat + 64 ≤ 2 ^ 61 - 1 →
    exec (.absorb p) s = exec (.write p) s

/-- R110, R36 (d): the initialised states have absorbed the empty message. -/
def Obligations.InitialisedAbsorbedNothing : Prop :=
  State.reset.Absorbed [] ∧ ∀ s : State, (hardwareReset s).Absorbed [] ∧ (initialise s).Absorbed []

/-- R36 (d), R110: an accepted WRITE or ABSORB appends its payload to the message absorbed: LENB is its length, H is
`compress` over its whole blocks from IV, and BUF holds its last BUFCNT bytes. -/
def Obligations.IngestExtendsMessage : Prop :=
  ∀ (M : List Byte) (i : Instr) (s t : State), s.Absorbed M → isIngest i = true →
    exec i s = .next t → t.rspOut = some ⟨statusOK, 0⟩ → t.Absorbed (M ++ payloadOf i)

/-- R124, the segmentation law: two sequences of accepted WRITE and ABSORB commands from initialised states, whose payloads
concatenate to the same message, leave equal LENB, H, BUF[0..BUFCNT-1], ERR and ERRHDR; and when both or neither are
empty (an accepted command of no bytes still moves INIT to ABSORBING, R116) equal PHASE, and every later sequence of
commands gets the same responses from both. -/
def Obligations.SegmentationLaw : Prop :=
  ∀ (is js : List Instr) (s s' t u : State) (rs us : List Response),
    (∀ i ∈ is, isIngest i = true) → (∀ j ∈ js, isIngest j = true) → messageOf is = messageOf js →
    runAll is (initialise s) = some (t, rs) → allOK rs = true →
    runAll js (initialise s') = some (u, us) → allOK us = true →
    t.LENB = u.LENB ∧ t.H = u.H ∧ (∀ k : Fin 64, k.val < t.LENB.toNat % 64 → t.BUF[k.val] = u.BUF[k.val]) ∧
    t.ERR = u.ERR ∧ t.ERRHDR = u.ERRHDR ∧
    ((is = [] ↔ js = []) → t.PHASE = u.PHASE ∧
      ∀ later : List Instr, ∃ (t' u' : State) (qs : List Response),
        runAll later t = some (t', qs) ∧ runAll later u = some (u', qs))

/-! ### 42_padding.md -/

/-- R125, R126: z is the least number with (L + 1 + z) mod 64 = 56; the padded message is a whole number of blocks; the
bytes FINALIZE must compress are one block when r <= 55 and two when r >= 56. -/
def Obligations.PaddingLength : Prop :=
  ∀ L : Nat,
    (L + 1 + zeroCount L) % 64 = 56 ∧ (∀ z < zeroCount L, (L + 1 + z) % 64 ≠ 56) ∧
    (padding L).length = 1 + zeroCount L + 8 ∧ (L + (padding L).length) % 64 = 0 ∧
    L % 64 + (padding L).length = (if L % 64 ≤ 55 then 64 else 128) ∧
    (L + (padding L).length) / 64 = L / 64 + (if L % 64 ≤ 55 then 1 else 2)

/-- R129: the length field is 8 * LENB, its low three bits 0, most significant byte first; PAD_LEN writes nothing else; and
the last padded block has W[14] = bitlen[63:32] and W[15] = bitlen[31:0]. -/
def Obligations.LengthField : Prop :=
  ∀ s : State,
    (bitlen s).toNat = 8 * s.LENB.toNat ∧ (bitlen s).extractLsb' 0 3 = 0#3 ∧ (bitlen s).extractLsb' 3 61 = s.LENB ∧
    (∃ B : Vector Byte 64, padLen s = { s with BUF := B } ∧ (∀ k : Fin 56, B[k.val] = s.BUF[k.val]) ∧
      (∀ k : Fin 8, B[56 + k.val].toNat = 8 * s.LENB.toNat / 2 ^ (56 - 8 * k.val) % 256)) ∧
    (schedule (padLen s)).W[14] = (bitlen s).extractLsb' 32 32 ∧ (schedule (padLen s)).W[15] = (bitlen s).extractLsb' 0 32

/-- R127, R134: FINALIZE completes from every state whose phase is neither FINALIZED nor FAULT: it compresses the one or two
blocks of the layout, ends in FINALIZED with the last padded block in BUF and T = 64, and leaves LENB, ERR, ERRHDR
and the ports as they were; the waiting bytes enter block 1 unmodified. -/
def Obligations.FinalizeCompressesPaddedBlocks : Prop :=
  ∀ s : State, s.PHASE ≠ .fault → s.PHASE ≠ .finalized →
    ∃ t : State, exec .finalize s = .next t ∧ t.rspOut = some ⟨0x00#8, 0#32⟩ ∧ t.PHASE = .finalized ∧
      t.LENB = s.LENB ∧ t.ERR = s.ERR ∧ t.ERRHDR = s.ERRHDR ∧ t.T = 64#7 ∧ s.SamePorts t ∧
      (s.LENB.toNat % 64 ≤ 55 → t.BUF = padBlockOne s ∧ t.H = compressFn s.H (padBlockOne s)) ∧
      (56 ≤ s.LENB.toNat % 64 → t.BUF = padBlockTwo s ∧
        t.H = compressFn (compressFn s.H (padBlockOne s)) (padBlockTwo s))

/-- R131: after an accepted FINALIZE, H is the digest of the message absorbed: `compress` over every block of the padded
message, starting from IV; LENB still holds its length (R133). -/
def Obligations.FinalizeGivesDigest : Prop :=
  ∀ (M : List Byte) (s : State), s.Absorbed M → s.PHASE ≠ .fault → s.PHASE ≠ .finalized →
    ∃ t : State, exec .finalize s = .next t ∧ t.rspOut = some ⟨statusOK, 0⟩ ∧ t.PHASE = .finalized ∧
      t.H = digestOf M ∧ t.LENB.toNat = M.length

/-! ### 43_schedule.md and 44_compression.md -/

/-- R141, R142, R151, R153 bit by bit: which terms are rotations and which are shifts, with the corner values. -/
def Obligations.SigmaFunctionsBitwise : Prop :=
  (∀ (x : Word) (i : Nat), i < 32 →
    (ssig0 x).getLsbD i = (x.getLsbD ((i + 7) % 32) ^^ x.getLsbD ((i + 18) % 32) ^^ (decide (i + 3 < 32) && x.getLsbD (i + 3))) ∧
    (ssig1 x).getLsbD i = (x.getLsbD ((i + 17) % 32) ^^ x.getLsbD ((i + 19) % 32) ^^ (decide (i + 10 < 32) && x.getLsbD (i + 10))) ∧
    (bsig0 x).getLsbD i = (x.getLsbD ((i + 2) % 32) ^^ x.getLsbD ((i + 13) % 32) ^^ x.getLsbD ((i + 22) % 32)) ∧
    (bsig1 x).getLsbD i = (x.getLsbD ((i + 6) % 32) ^^ x.getLsbD ((i + 11) % 32) ^^ x.getLsbD ((i + 25) % 32))) ∧
  ssig0 0xFFFFFFFF#32 = 0x1FFFFFFF#32 ∧ ssig0 1#32 = 0x02004000#32 ∧ ssig0 0x80000000#32 = 0x11002000#32 ∧
  ssig1 0xFFFFFFFF#32 = 0x003FFFFF#32 ∧ ssig1 1#32 = 0x0000A000#32 ∧ ssig1 0x80000000#32 = 0x00205000#32 ∧
  ssig1 0x18#32 = 0x000F0000#32 ∧ bsig1 1#32 = 0x04200080#32 ∧ bsig1 0x80000000#32 = 0x02100040#32 ∧
  bsig0 1#32 = 0x40080400#32 ∧ bsig0 0x80000000#32 = 0x20040200#32 ∧
  ssig0 0 = 0 ∧ ssig1 0 = 0 ∧ bsig0 0 = 0 ∧ bsig1 0 = 0 ∧
  bsig0 0xFFFFFFFF#32 = 0xFFFFFFFF#32 ∧ bsig1 0xFFFFFFFF#32 = 0xFFFFFFFF#32

/-- R152, R154: ch selects bit by bit and maj is the majority bit by bit, symmetric in its arguments; the corner values. -/
def Obligations.ChooseAndMajority : Prop :=
  (∀ x y z : Word,
    (∀ i : Nat, (ch x y z).getLsbD i = (if x.getLsbD i then y.getLsbD i else z.getLsbD i)) ∧
    (∀ i : Nat, (maj x y z).getLsbD i = Bool.atLeastTwo (x.getLsbD i) (y.getLsbD i) (z.getLsbD i)) ∧
    maj x y z = maj y x z ∧ maj x y z = maj x z y ∧
    ch 0 y z = z ∧ ch 0xFFFFFFFF#32 y z = y ∧ ch x y y = y ∧
    maj x x z = x ∧ maj 0 y z = y &&& z ∧ maj 0xFFFFFFFF#32 y z = y ||| z) ∧
  ch 0xF0F0F0F0#32 0xAAAAAAAA#32 0x55555555#32 = 0xA5A5A5A5#32 ∧
  maj 0xFFFFFFFF#32 0x12345678#32 0x9ABCDEF0#32 = 0x9ABCDEF8#32

/-- R163, which the spec derives: the equal forms of ch and maj. -/
def Obligations.EqualForms : Prop :=
  ∀ x y z : Word,
    ch x y z = z ^^^ (x &&& (y ^^^ z)) ∧ maj x y z = (x &&& y) ||| (z &&& (x ||| y)) ∧
    (x &&& y) &&& (~~~x &&& z) = 0 ∧ ch x y z = (x &&& y) ||| (~~~x &&& z) ∧ ch x y z = (x &&& y) + (~~~x &&& z)

/-- R143, R144: SCHED_LOAD t and SCHED_EXP t each write W[t], as given, and nothing else; and after the whole `schedule`
(R145) the final W satisfies both, and nothing but W has changed. -/
def Obligations.ScheduleWords : Prop :=
  (∀ (t : Fin 16) (s : State), schedLoad t s =
    { s with W := s.W.set t.val (be32 s.BUF[4 * t.val] s.BUF[4 * t.val + 1] s.BUF[4 * t.val + 2] s.BUF[4 * t.val + 3]) }) ∧
  (∀ (t : Fin 48) (s : State), schedExp ⟨t.val + 16, by omega⟩ s =
    { s with W := s.W.set (t.val + 16) (s.W[t.val] + ssig0 s.W[t.val + 1] + s.W[t.val + 9] + ssig1 s.W[t.val + 14]) }) ∧
  (∀ s : State, ∃ W : Vector Word 64, schedule s = { s with W := W } ∧
    (∀ t : Fin 16, W[t.val] = be32 s.BUF[4 * t.val] s.BUF[4 * t.val + 1] s.BUF[4 * t.val + 2] s.BUF[4 * t.val + 3]) ∧
    (∀ t : Fin 48, W[t.val + 16] = W[t.val] + ssig0 W[t.val + 1] + W[t.val + 9] + ssig1 W[t.val + 14]))

/-- R155, R156, R159: LOADV, ROUND and FEEDFWD register by register, and that each writes nothing else. -/
def Obligations.RoundMicroOperations : Prop :=
  (∀ s : State, loadv s = { s with v := ⟨s.H[0], s.H[1], s.H[2], s.H[3], s.H[4], s.H[5], s.H[6], s.H[7]⟩, T := 0#7 }) ∧
  (∀ (t : Fin 64) (s : State) (t1 t2 : Word),
    t1 = s.v.h + bsig1 s.v.e + ch s.v.e s.v.f s.v.g + K[t.val] + s.W[t.val] → t2 = bsig0 s.v.a + maj s.v.a s.v.b s.v.c →
    round t s = { s with v := ⟨t1 + t2, s.v.a, s.v.b, s.v.c, s.v.d + t1, s.v.e, s.v.f, s.v.g⟩,
                         T := BitVec.ofNat 7 (t.val + 1) }) ∧
  (∀ s : State, feedfwd s = { s with H := #v[s.H[0] + s.v.a, s.H[1] + s.v.b, s.H[2] + s.v.c, s.H[3] + s.v.d,
                                             s.H[4] + s.v.e, s.H[5] + s.v.f, s.H[6] + s.v.g, s.H[7] + s.v.h] })

/-- R157, R161: after LOADV and the first n rounds T = n and H is as before the block. -/
def Obligations.RoundsKeepHashState : Prop :=
  ∀ (s : State) (n : Nat), n ≤ 64 →
    let u := ((List.finRange 64).take n).foldl (fun s t => round t s) (loadv s)
    u.T.toNat = n ∧ u.H = s.H ∧ u.W = s.W ∧ u.BUF = s.BUF

/-- R220, R221: `compress` is its 130 micro-operations in order: 16 SCHED_LOAD, 48 SCHED_EXP, 1 LOADV, 64 ROUND, 1 FEEDFWD. -/
def Obligations.CompressIsItsMicroOperations : Prop :=
  blockMicroOps.length = 130 ∧
  (∀ s : State, compress s = blockMicroOps.foldl (fun s m => runMicroOp m s) s) ∧
  (∀ t : Fin 16, blockMicroOps[t.val]? = some (.schedLoad t)) ∧
  (∀ t : Fin 64, 16 ≤ t.val → blockMicroOps[t.val]? = some (.schedExp t)) ∧
  blockMicroOps[64]? = some .loadv ∧
  (∀ t : Fin 64, blockMicroOps[65 + t.val]? = some (.round t)) ∧ blockMicroOps[129]? = some .feedfwd

/-- R160, R146: `compress` is a function of H and BUF alone, the one computed with the sixteen-word window; it writes H, W,
a..h and T and nothing else, and leaves T = 64. -/
def Obligations.CompressRefinesFunction : Prop :=
  ∀ s : State, ∃ (W : Vector Word 64) (v : WorkRegs),
    compress s = { s with H := compressFn s.H s.BUF, W := W, v := v, T := 64#7 }

/-! ### 45_readout.md -/

/-- R172: RDW, whole. -/
def Obligations.RdwReturnsHashWord : Prop :=
  ∀ (s : State) (i : BitVec 8),
    (s.PHASE = .fault → exec (.rdw i) s = .next { s with rspOut := some ⟨0x09#8, 0#32⟩ }) ∧
    (s.PHASE ≠ .fault → 7 < i.toNat → exec (.rdw i) s =
      .next { s with ERR := 2#4, ERRHDR := 0x60#8 ++ i, PHASE := .fault, rspOut := some ⟨0x02#8, 0#32⟩ }) ∧
    (s.PHASE ≠ .fault → s.PHASE ≠ .finalized → i.toNat ≤ 7 → exec (.rdw i) s =
      .next { s with ERR := 6#4, ERRHDR := 0x60#8 ++ i, PHASE := .fault, rspOut := some ⟨0x06#8, 0#32⟩ }) ∧
    (∀ h : i.toNat ≤ 7, s.PHASE = .finalized →
      exec (.rdw i) s = .next { s with rspOut := some ⟨0x00#8, s.H[i.toNat]⟩ })

/-- R173, R170: RDB, whole: digest[j] is bits 31 - 8(j mod 4) : 24 - 8(j mod 4) of H[j div 4], zero-extended. -/
def Obligations.RdbReturnsDigestByte : Prop :=
  ∀ (s : State) (j : BitVec 8),
    (s.PHASE = .fault → exec (.rdb j) s = .next { s with rspOut := some ⟨0x09#8, 0#32⟩ }) ∧
    (s.PHASE ≠ .fault → 31 < j.toNat → exec (.rdb j) s =
      .next { s with ERR := 2#4, ERRHDR := 0x70#8 ++ j, PHASE := .fault, rspOut := some ⟨0x02#8, 0#32⟩ }) ∧
    (s.PHASE ≠ .fault → s.PHASE ≠ .finalized → j.toNat ≤ 31 → exec (.rdb j) s =
      .next { s with ERR := 6#4, ERRHDR := 0x70#8 ++ j, PHASE := .fault, rspOut := some ⟨0x06#8, 0#32⟩ }) ∧
    (∀ h : j.toNat ≤ 31, s.PHASE = .finalized → ∃ d : Word,
      exec (.rdb j) s = .next { s with rspOut := some ⟨0x00#8, d⟩ } ∧
      d.toNat = (s.H[j.toNat / 4]'(by omega)).toNat / 2 ^ (24 - 8 * (j.toNat % 4)) % 256)

/-- R55: in phase FINALIZED, RDW i returns be32 of what RDB 4i, 4i+1, 4i+2 and 4i+3 return. -/
def Obligations.WordViewIsFourBytes : Prop :=
  ∀ (s : State) (i : Fin 8), s.PHASE = .finalized → ∃ (w : Word) (b : Fin 4 → Byte),
    exec (.rdw (BitVec.ofNat 8 i.val)) s = .next { s with rspOut := some ⟨statusOK, w⟩ } ∧
    (∀ k : Fin 4, exec (.rdb (BitVec.ofNat 8 (4 * i.val + k.val))) s =
      .next { s with rspOut := some ⟨statusOK, (b k).setWidth 32⟩ }) ∧
    w = be32 (b 0) (b 1) (b 2) (b 3)

/-- R176: on their OK path RDW, RDB and RDSTAT change no state, and repeated they give the same response. -/
def Obligations.ReadsArePure : Prop :=
  ∀ (i : Instr) (s t : State) (d : Word), (∃ x, i = .rdw x) ∨ (∃ x, i = .rdb x) ∨ i = .rdstat →
    exec i s = .next t → t.rspOut = some ⟨statusOK, d⟩ →
    t = { s with rspOut := some ⟨statusOK, d⟩ } ∧ exec i t = .next t

/-! ### 60_exceptions.md -/

/-- R184: in phase FAULT every command but INIT, RESET and RDSTAT, and every illegal header, answers (0x09, 0) and changes
no state. -/
def Obligations.FaultedEngineRefuses : Prop :=
  ∀ s : State, s.PHASE = .fault →
    (∀ i : Instr, i ≠ .init → i ≠ .reset → i ≠ .rdstat → exec i s = .next { s with rspOut := some ⟨0x09#8, 0#32⟩ }) ∧
    (∀ (c : Cause) (hdr : Hdr), refuseHeader c hdr s = { s with rspOut := some ⟨0x09#8, 0#32⟩ })

/-- R187: when a command takes the engine into FAULT, the whole effect is that ERR is a cause 1..8, ERRHDR is its header,
PHASE is FAULT and the response is (cause, 0); likewise for an illegal header. -/
def Obligations.FaultEntryIsPrecise : Prop :=
  (∀ (i : Instr) (s t : State), s.PHASE ≠ .fault → exec i s = .next t → t.PHASE = .fault →
    ∃ c : Cause, 1 ≤ c.code.toNat ∧ c.code.toNat ≤ 8 ∧
      t = { s with ERR := c.code, ERRHDR := headerOf i, PHASE := .fault, rspOut := some ⟨c.code.setWidth 8, 0#32⟩ }) ∧
  (∀ (c : Cause) (hdr : Hdr) (s : State), s.PHASE ≠ .fault → refuseHeader c hdr s =
      { s with ERR := c.code, ERRHDR := hdr, PHASE := .fault, rspOut := some ⟨c.code.setWidth 8, 0#32⟩ })

/-- R181, R183, R185: when WRITE, ABSORB and FINALIZE fault, with which cause first, in a state not in FAULT. -/
def Obligations.IngestFaultPriority : Prop :=
  ∀ (s : State) (p : List Byte), s.PHASE ≠ .fault →
    let fault (i : Instr) (code : BitVec 4) : Prop := exec i s =
      .next { s with ERR := code, ERRHDR := headerOf i, PHASE := .fault, rspOut := some ⟨code.setWidth 8, 0#32⟩ }
    (s.PHASE = .finalized → fault (.write p) 5#4 ∧ fault .finalize 5#4) ∧
    (s.PHASE ≠ .finalized → 2 ^ 61 - 1 < s.LENB.toNat + p.length → fault (.write p) 8#4) ∧
    (p.length ≠ 64 → fault (.absorb p) 3#4) ∧
    (p.length = 64 → s.PHASE = .finalized → fault (.absorb p) 5#4) ∧
    (p.length = 64 → s.PHASE ≠ .finalized → s.LENB.toNat % 64 ≠ 0 → fault (.absorb p) 4#4) ∧
    (p.length = 64 → s.PHASE ≠ .finalized → s.LENB.toNat % 64 = 0 → 2 ^ 61 - 1 < s.LENB.toNat + 64 →
      fault (.absorb p) 8#4)

/-- R185: one step on a whole command is the step function as R185 writes it, with decode as R78 writes it. -/
def Obligations.StepRefinesStepFunction : Prop :=
  ∀ (s : State) (hdr : Hdr) (hdrs : List Hdr) (p more : List Byte),
    s.rstN = true → (s.rspOut = none ∨ s.rspReady = true) → s.cur = none →
    s.cmdIn = hdr :: hdrs → s.plIn = p ++ more → p.length = plen hdr →
    step s = .next (stepR185 hdr p { s with cmdIn := hdrs, plIn := more, rspOut := none })

/-- R188, R189: a step leaves phase FAULT only by hardware reset or the header of INIT or RESET; while it stays there, the
first cause, its header, H, LENB and BUF are kept. -/
def Obligations.FaultIsSticky : Prop :=
  ∀ s t : State, s.PHASE = .fault → step s = .next t →
    (t.PHASE ≠ .fault → s.rstN = false ∨
      ∃ (hdr : Hdr) (p : List Byte) (u : State), fetch s = .command hdr p u ∧ (hdr = 0x1000#16 ∨ hdr = 0x5000#16)) ∧
    (t.PHASE = .fault → t.ERR = s.ERR ∧ t.ERRHDR = s.ERRHDR ∧ t.H = s.H ∧ t.LENB = s.LENB ∧ t.BUF = s.BUF)

/-- R171, R197: outside phase FINALIZED no response but RDSTAT's carries data. -/
def Obligations.NoDigestOutsideFinalized : Prop :=
  ∀ (i : Instr) (s t : State), s.PHASE ≠ .finalized → i ≠ .rdstat → exec i s = .next t →
    ∃ st : BitVec 8, t.rspOut = some ⟨st, 0#32⟩

/-- R191: the phase transition table, for every well-formed command and every state that meets the invariant. -/
def Obligations.PhaseTransitionTable : Prop :=
  ∀ (i : Instr) (s t : State), i.wf = true → s.Inv → exec i s = .next t → t.PHASE ∈ phaseTable i s.PHASE

/-! ### 70_reset_and_hazards.md and whole messages -/

/-- R210, R212: with rst_n low a step gives the reset state whatever the prior state: the command in progress and its
response are gone, and the engine's registers do not depend on what they were. Two clauses are the model's choices: that
a..h, W and BUF too do not depend on what they were (the last clause) holds by the zeros of log 3, where R37 and R210 leave
them unspecified; that what the host offers stays offered is log 4. -/
def Obligations.HardwareResetFromAnyState : Prop :=
  ∀ s : State, s.rstN = false → ∃ t : State, step s = .next t ∧
    t.H = IV ∧ t.LENB = 0 ∧ t.PHASE = .init ∧ t.ERR = 0 ∧ t.ERRHDR = 0 ∧ t.T = 0 ∧
    t.cur = none ∧ t.rspOut = none ∧ t.cmdIn = s.cmdIn ∧ t.plIn = s.plIn ∧ t.rstN = false ∧
    ∀ u : State, u.rstN = false → u.cmdIn = s.cmdIn → u.plIn = s.plIn → u.rspReady = s.rspReady → step u = .next t

/-- R213: INIT, RESET and hardware reset leave states that differ only in what is unobservable, once the response of the
commands is taken. -/
def Obligations.ThreeResetsAgree : Prop :=
  ∀ s t : State, s.cur = none → exec .init s = .next t ∨ exec .reset s = .next t →
    (takeResponse t).SameVisible (hardwareReset s)

/-- R18, R83, R131: HASH of any message up to 2^61 - 1 bytes, from any state, is answered OK throughout, and its eight RDW
responses are the words of the digest of the message. -/
def Obligations.HashGivesDigestWords : Prop :=
  ∀ (M : List Byte) (s : State), M.length ≤ 2 ^ 61 - 1 →
    ∃ (t : State) (rs : List Response), runAll (hash M) s = some (t, rs) ∧ allOK rs = true ∧
      (rs.drop (rs.length - 8)).map Response.data = (digestOf M).toList
end

