-- ==== Sys2Proof/Laws/State.lean ====
section
/-! SUPPORT. Laws/State.lean: one lemma per field per shared update of State. -/

namespace Sys2Proof.Machine

/-! ### memWrite -/

@[simp] theorem memWrite_H (k : Fin 64) (b : Byte) (s : State) : (memWrite k b s).H = s.H := rfl
@[simp] theorem memWrite_v (k : Fin 64) (b : Byte) (s : State) : (memWrite k b s).v = s.v := rfl
@[simp] theorem memWrite_W (k : Fin 64) (b : Byte) (s : State) : (memWrite k b s).W = s.W := rfl
@[simp] theorem memWrite_BUF (k : Fin 64) (b : Byte) (s : State) : (memWrite k b s).BUF = s.BUF.set k.val b := rfl
@[simp] theorem memWrite_LENB (k : Fin 64) (b : Byte) (s : State) : (memWrite k b s).LENB = s.LENB := rfl
@[simp] theorem memWrite_PHASE (k : Fin 64) (b : Byte) (s : State) : (memWrite k b s).PHASE = s.PHASE := rfl
@[simp] theorem memWrite_ERR (k : Fin 64) (b : Byte) (s : State) : (memWrite k b s).ERR = s.ERR := rfl
@[simp] theorem memWrite_ERRHDR (k : Fin 64) (b : Byte) (s : State) : (memWrite k b s).ERRHDR = s.ERRHDR := rfl
@[simp] theorem memWrite_T (k : Fin 64) (b : Byte) (s : State) : (memWrite k b s).T = s.T := rfl
@[simp] theorem memWrite_rstN (k : Fin 64) (b : Byte) (s : State) : (memWrite k b s).rstN = s.rstN := rfl
@[simp] theorem memWrite_cmdIn (k : Fin 64) (b : Byte) (s : State) : (memWrite k b s).cmdIn = s.cmdIn := rfl
@[simp] theorem memWrite_plIn (k : Fin 64) (b : Byte) (s : State) : (memWrite k b s).plIn = s.plIn := rfl
@[simp] theorem memWrite_cur (k : Fin 64) (b : Byte) (s : State) : (memWrite k b s).cur = s.cur := rfl
@[simp] theorem memWrite_rspOut (k : Fin 64) (b : Byte) (s : State) : (memWrite k b s).rspOut = s.rspOut := rfl
@[simp] theorem memWrite_rspReady (k : Fin 64) (b : Byte) (s : State) : (memWrite k b s).rspReady = s.rspReady := rfl

/-! ### respond -/

@[simp] theorem respond_H (st : BitVec 8) (d : Word) (s : State) : (respond st d s).H = s.H := rfl
@[simp] theorem respond_v (st : BitVec 8) (d : Word) (s : State) : (respond st d s).v = s.v := rfl
@[simp] theorem respond_W (st : BitVec 8) (d : Word) (s : State) : (respond st d s).W = s.W := rfl
@[simp] theorem respond_BUF (st : BitVec 8) (d : Word) (s : State) : (respond st d s).BUF = s.BUF := rfl
@[simp] theorem respond_LENB (st : BitVec 8) (d : Word) (s : State) : (respond st d s).LENB = s.LENB := rfl
@[simp] theorem respond_PHASE (st : BitVec 8) (d : Word) (s : State) : (respond st d s).PHASE = s.PHASE := rfl
@[simp] theorem respond_ERR (st : BitVec 8) (d : Word) (s : State) : (respond st d s).ERR = s.ERR := rfl
@[simp] theorem respond_ERRHDR (st : BitVec 8) (d : Word) (s : State) : (respond st d s).ERRHDR = s.ERRHDR := rfl
@[simp] theorem respond_T (st : BitVec 8) (d : Word) (s : State) : (respond st d s).T = s.T := rfl
@[simp] theorem respond_rstN (st : BitVec 8) (d : Word) (s : State) : (respond st d s).rstN = s.rstN := rfl
@[simp] theorem respond_cmdIn (st : BitVec 8) (d : Word) (s : State) : (respond st d s).cmdIn = s.cmdIn := rfl
@[simp] theorem respond_plIn (st : BitVec 8) (d : Word) (s : State) : (respond st d s).plIn = s.plIn := rfl
@[simp] theorem respond_cur (st : BitVec 8) (d : Word) (s : State) : (respond st d s).cur = s.cur := rfl
@[simp] theorem respond_rspOut (st : BitVec 8) (d : Word) (s : State) : (respond st d s).rspOut = some ⟨st, d⟩ := rfl
@[simp] theorem respond_rspReady (st : BitVec 8) (d : Word) (s : State) : (respond st d s).rspReady = s.rspReady := rfl

/-! ### raiseFault -/

@[simp] theorem raiseFault_H (c : Cause) (hdr : Hdr) (s : State) : (raiseFault c hdr s).H = s.H := rfl
@[simp] theorem raiseFault_v (c : Cause) (hdr : Hdr) (s : State) : (raiseFault c hdr s).v = s.v := rfl
@[simp] theorem raiseFault_W (c : Cause) (hdr : Hdr) (s : State) : (raiseFault c hdr s).W = s.W := rfl
@[simp] theorem raiseFault_BUF (c : Cause) (hdr : Hdr) (s : State) : (raiseFault c hdr s).BUF = s.BUF := rfl
@[simp] theorem raiseFault_LENB (c : Cause) (hdr : Hdr) (s : State) : (raiseFault c hdr s).LENB = s.LENB := rfl
@[simp] theorem raiseFault_PHASE (c : Cause) (hdr : Hdr) (s : State) : (raiseFault c hdr s).PHASE = .fault := rfl
@[simp] theorem raiseFault_ERR (c : Cause) (hdr : Hdr) (s : State) : (raiseFault c hdr s).ERR = c.code := rfl
@[simp] theorem raiseFault_ERRHDR (c : Cause) (hdr : Hdr) (s : State) : (raiseFault c hdr s).ERRHDR = hdr := rfl
@[simp] theorem raiseFault_T (c : Cause) (hdr : Hdr) (s : State) : (raiseFault c hdr s).T = s.T := rfl
@[simp] theorem raiseFault_rstN (c : Cause) (hdr : Hdr) (s : State) : (raiseFault c hdr s).rstN = s.rstN := rfl
@[simp] theorem raiseFault_cmdIn (c : Cause) (hdr : Hdr) (s : State) : (raiseFault c hdr s).cmdIn = s.cmdIn := rfl
@[simp] theorem raiseFault_plIn (c : Cause) (hdr : Hdr) (s : State) : (raiseFault c hdr s).plIn = s.plIn := rfl
@[simp] theorem raiseFault_cur (c : Cause) (hdr : Hdr) (s : State) : (raiseFault c hdr s).cur = s.cur := rfl
@[simp] theorem raiseFault_rspOut (c : Cause) (hdr : Hdr) (s : State) : (raiseFault c hdr s).rspOut = some ⟨statusOf c, 0⟩ := rfl
@[simp] theorem raiseFault_rspReady (c : Cause) (hdr : Hdr) (s : State) : (raiseFault c hdr s).rspReady = s.rspReady := rfl

/-! ### answerFaulted -/

@[simp] theorem answerFaulted_H (s : State) : (answerFaulted s).H = s.H := rfl
@[simp] theorem answerFaulted_v (s : State) : (answerFaulted s).v = s.v := rfl
@[simp] theorem answerFaulted_W (s : State) : (answerFaulted s).W = s.W := rfl
@[simp] theorem answerFaulted_BUF (s : State) : (answerFaulted s).BUF = s.BUF := rfl
@[simp] theorem answerFaulted_LENB (s : State) : (answerFaulted s).LENB = s.LENB := rfl
@[simp] theorem answerFaulted_PHASE (s : State) : (answerFaulted s).PHASE = s.PHASE := rfl
@[simp] theorem answerFaulted_ERR (s : State) : (answerFaulted s).ERR = s.ERR := rfl
@[simp] theorem answerFaulted_ERRHDR (s : State) : (answerFaulted s).ERRHDR = s.ERRHDR := rfl
@[simp] theorem answerFaulted_T (s : State) : (answerFaulted s).T = s.T := rfl
@[simp] theorem answerFaulted_rstN (s : State) : (answerFaulted s).rstN = s.rstN := rfl
@[simp] theorem answerFaulted_cmdIn (s : State) : (answerFaulted s).cmdIn = s.cmdIn := rfl
@[simp] theorem answerFaulted_plIn (s : State) : (answerFaulted s).plIn = s.plIn := rfl
@[simp] theorem answerFaulted_cur (s : State) : (answerFaulted s).cur = s.cur := rfl
@[simp] theorem answerFaulted_rspOut (s : State) : (answerFaulted s).rspOut = some ⟨statusFaulted, 0⟩ := rfl
@[simp] theorem answerFaulted_rspReady (s : State) : (answerFaulted s).rspReady = s.rspReady := rfl

/-! ### initialise -/

@[simp] theorem initialise_H (s : State) : (initialise s).H = IV := rfl
@[simp] theorem initialise_v (s : State) : (initialise s).v = s.v := rfl
@[simp] theorem initialise_W (s : State) : (initialise s).W = s.W := rfl
@[simp] theorem initialise_BUF (s : State) : (initialise s).BUF = s.BUF := rfl
@[simp] theorem initialise_LENB (s : State) : (initialise s).LENB = 0 := rfl
@[simp] theorem initialise_PHASE (s : State) : (initialise s).PHASE = .init := rfl
@[simp] theorem initialise_ERR (s : State) : (initialise s).ERR = 0 := rfl
@[simp] theorem initialise_ERRHDR (s : State) : (initialise s).ERRHDR = 0 := rfl
@[simp] theorem initialise_T (s : State) : (initialise s).T = s.T := rfl
@[simp] theorem initialise_rstN (s : State) : (initialise s).rstN = s.rstN := rfl
@[simp] theorem initialise_cmdIn (s : State) : (initialise s).cmdIn = s.cmdIn := rfl
@[simp] theorem initialise_plIn (s : State) : (initialise s).plIn = s.plIn := rfl
@[simp] theorem initialise_cur (s : State) : (initialise s).cur = s.cur := rfl
@[simp] theorem initialise_rspOut (s : State) : (initialise s).rspOut = s.rspOut := rfl
@[simp] theorem initialise_rspReady (s : State) : (initialise s).rspReady = s.rspReady := rfl

/-! ### hardwareReset -/

@[simp] theorem hardwareReset_H (s : State) : (hardwareReset s).H = IV := rfl
@[simp] theorem hardwareReset_v (s : State) : (hardwareReset s).v = ⟨0, 0, 0, 0, 0, 0, 0, 0⟩ := rfl
@[simp] theorem hardwareReset_W (s : State) : (hardwareReset s).W = Vector.replicate 64 0 := rfl
@[simp] theorem hardwareReset_BUF (s : State) : (hardwareReset s).BUF = Vector.replicate 64 0 := rfl
@[simp] theorem hardwareReset_LENB (s : State) : (hardwareReset s).LENB = 0 := rfl
@[simp] theorem hardwareReset_PHASE (s : State) : (hardwareReset s).PHASE = .init := rfl
@[simp] theorem hardwareReset_ERR (s : State) : (hardwareReset s).ERR = 0 := rfl
@[simp] theorem hardwareReset_ERRHDR (s : State) : (hardwareReset s).ERRHDR = 0 := rfl
@[simp] theorem hardwareReset_T (s : State) : (hardwareReset s).T = 0 := rfl
@[simp] theorem hardwareReset_rstN (s : State) : (hardwareReset s).rstN = s.rstN := rfl
@[simp] theorem hardwareReset_cmdIn (s : State) : (hardwareReset s).cmdIn = s.cmdIn := rfl
@[simp] theorem hardwareReset_plIn (s : State) : (hardwareReset s).plIn = s.plIn := rfl
@[simp] theorem hardwareReset_cur (s : State) : (hardwareReset s).cur = none := rfl
@[simp] theorem hardwareReset_rspOut (s : State) : (hardwareReset s).rspOut = none := rfl
@[simp] theorem hardwareReset_rspReady (s : State) : (hardwareReset s).rspReady = s.rspReady := rfl

/-! ### takeResponse -/

@[simp] theorem takeResponse_H (s : State) : (takeResponse s).H = s.H := rfl
@[simp] theorem takeResponse_v (s : State) : (takeResponse s).v = s.v := rfl
@[simp] theorem takeResponse_W (s : State) : (takeResponse s).W = s.W := rfl
@[simp] theorem takeResponse_BUF (s : State) : (takeResponse s).BUF = s.BUF := rfl
@[simp] theorem takeResponse_LENB (s : State) : (takeResponse s).LENB = s.LENB := rfl
@[simp] theorem takeResponse_PHASE (s : State) : (takeResponse s).PHASE = s.PHASE := rfl
@[simp] theorem takeResponse_ERR (s : State) : (takeResponse s).ERR = s.ERR := rfl
@[simp] theorem takeResponse_ERRHDR (s : State) : (takeResponse s).ERRHDR = s.ERRHDR := rfl
@[simp] theorem takeResponse_T (s : State) : (takeResponse s).T = s.T := rfl
@[simp] theorem takeResponse_rstN (s : State) : (takeResponse s).rstN = s.rstN := rfl
@[simp] theorem takeResponse_cmdIn (s : State) : (takeResponse s).cmdIn = s.cmdIn := rfl
@[simp] theorem takeResponse_plIn (s : State) : (takeResponse s).plIn = s.plIn := rfl
@[simp] theorem takeResponse_cur (s : State) : (takeResponse s).cur = s.cur := rfl
@[simp] theorem takeResponse_rspOut (s : State) : (takeResponse s).rspOut = none := rfl
@[simp] theorem takeResponse_rspReady (s : State) : (takeResponse s).rspReady = s.rspReady := rfl

/-! ### padZero -/

@[simp] theorem padZero_H (lo hi : Nat) (s : State) : (padZero lo hi s).H = s.H := by simp only [padZero]
@[simp] theorem padZero_v (lo hi : Nat) (s : State) : (padZero lo hi s).v = s.v := by simp only [padZero]
@[simp] theorem padZero_W (lo hi : Nat) (s : State) : (padZero lo hi s).W = s.W := by simp only [padZero]
@[simp] theorem padZero_BUF (lo hi : Nat) (s : State) : (padZero lo hi s).BUF = zeroRange lo hi s.BUF := by simp only [padZero]
@[simp] theorem padZero_LENB (lo hi : Nat) (s : State) : (padZero lo hi s).LENB = s.LENB := by simp only [padZero]
@[simp] theorem padZero_PHASE (lo hi : Nat) (s : State) : (padZero lo hi s).PHASE = s.PHASE := by simp only [padZero]
@[simp] theorem padZero_ERR (lo hi : Nat) (s : State) : (padZero lo hi s).ERR = s.ERR := by simp only [padZero]
@[simp] theorem padZero_ERRHDR (lo hi : Nat) (s : State) : (padZero lo hi s).ERRHDR = s.ERRHDR := by simp only [padZero]
@[simp] theorem padZero_T (lo hi : Nat) (s : State) : (padZero lo hi s).T = s.T := by simp only [padZero]
@[simp] theorem padZero_rstN (lo hi : Nat) (s : State) : (padZero lo hi s).rstN = s.rstN := by simp only [padZero]
@[simp] theorem padZero_cmdIn (lo hi : Nat) (s : State) : (padZero lo hi s).cmdIn = s.cmdIn := by simp only [padZero]
@[simp] theorem padZero_plIn (lo hi : Nat) (s : State) : (padZero lo hi s).plIn = s.plIn := by simp only [padZero]
@[simp] theorem padZero_cur (lo hi : Nat) (s : State) : (padZero lo hi s).cur = s.cur := by simp only [padZero]
@[simp] theorem padZero_rspOut (lo hi : Nat) (s : State) : (padZero lo hi s).rspOut = s.rspOut := by simp only [padZero]
@[simp] theorem padZero_rspReady (lo hi : Nat) (s : State) : (padZero lo hi s).rspReady = s.rspReady := by simp only [padZero]

/-! ### padLen -/

@[simp] theorem padLen_H (s : State) : (padLen s).H = s.H := by simp only [padLen]
@[simp] theorem padLen_v (s : State) : (padLen s).v = s.v := by simp only [padLen]
@[simp] theorem padLen_W (s : State) : (padLen s).W = s.W := by simp only [padLen]
@[simp] theorem padLen_BUF (s : State) : (padLen s).BUF = withLength (bitlen s) s.BUF := by simp only [padLen]
@[simp] theorem padLen_LENB (s : State) : (padLen s).LENB = s.LENB := by simp only [padLen]
@[simp] theorem padLen_PHASE (s : State) : (padLen s).PHASE = s.PHASE := by simp only [padLen]
@[simp] theorem padLen_ERR (s : State) : (padLen s).ERR = s.ERR := by simp only [padLen]
@[simp] theorem padLen_ERRHDR (s : State) : (padLen s).ERRHDR = s.ERRHDR := by simp only [padLen]
@[simp] theorem padLen_T (s : State) : (padLen s).T = s.T := by simp only [padLen]
@[simp] theorem padLen_rstN (s : State) : (padLen s).rstN = s.rstN := by simp only [padLen]
@[simp] theorem padLen_cmdIn (s : State) : (padLen s).cmdIn = s.cmdIn := by simp only [padLen]
@[simp] theorem padLen_plIn (s : State) : (padLen s).plIn = s.plIn := by simp only [padLen]
@[simp] theorem padLen_cur (s : State) : (padLen s).cur = s.cur := by simp only [padLen]
@[simp] theorem padLen_rspOut (s : State) : (padLen s).rspOut = s.rspOut := by simp only [padLen]
@[simp] theorem padLen_rspReady (s : State) : (padLen s).rspReady = s.rspReady := by simp only [padLen]

/-! ### loadv -/

@[simp] theorem loadv_H (s : State) : (loadv s).H = s.H := rfl
@[simp] theorem loadv_v (s : State) : (loadv s).v = loadRegs s.H := rfl
@[simp] theorem loadv_W (s : State) : (loadv s).W = s.W := rfl
@[simp] theorem loadv_BUF (s : State) : (loadv s).BUF = s.BUF := rfl
@[simp] theorem loadv_LENB (s : State) : (loadv s).LENB = s.LENB := rfl
@[simp] theorem loadv_PHASE (s : State) : (loadv s).PHASE = s.PHASE := rfl
@[simp] theorem loadv_ERR (s : State) : (loadv s).ERR = s.ERR := rfl
@[simp] theorem loadv_ERRHDR (s : State) : (loadv s).ERRHDR = s.ERRHDR := rfl
@[simp] theorem loadv_T (s : State) : (loadv s).T = 0 := rfl
@[simp] theorem loadv_rstN (s : State) : (loadv s).rstN = s.rstN := rfl
@[simp] theorem loadv_cmdIn (s : State) : (loadv s).cmdIn = s.cmdIn := rfl
@[simp] theorem loadv_plIn (s : State) : (loadv s).plIn = s.plIn := rfl
@[simp] theorem loadv_cur (s : State) : (loadv s).cur = s.cur := rfl
@[simp] theorem loadv_rspOut (s : State) : (loadv s).rspOut = s.rspOut := rfl
@[simp] theorem loadv_rspReady (s : State) : (loadv s).rspReady = s.rspReady := rfl

/-! ### round -/

@[simp] theorem round_H (t : Fin 64) (s : State) : (round t s).H = s.H := rfl
@[simp] theorem round_v (t : Fin 64) (s : State) : (round t s).v = roundRegs K[t.val] s.W[t.val] s.v := rfl
@[simp] theorem round_W (t : Fin 64) (s : State) : (round t s).W = s.W := rfl
@[simp] theorem round_BUF (t : Fin 64) (s : State) : (round t s).BUF = s.BUF := rfl
@[simp] theorem round_LENB (t : Fin 64) (s : State) : (round t s).LENB = s.LENB := rfl
@[simp] theorem round_PHASE (t : Fin 64) (s : State) : (round t s).PHASE = s.PHASE := rfl
@[simp] theorem round_ERR (t : Fin 64) (s : State) : (round t s).ERR = s.ERR := rfl
@[simp] theorem round_ERRHDR (t : Fin 64) (s : State) : (round t s).ERRHDR = s.ERRHDR := rfl
@[simp] theorem round_T (t : Fin 64) (s : State) : (round t s).T = BitVec.ofNat 7 (t.val + 1) := rfl
@[simp] theorem round_rstN (t : Fin 64) (s : State) : (round t s).rstN = s.rstN := rfl
@[simp] theorem round_cmdIn (t : Fin 64) (s : State) : (round t s).cmdIn = s.cmdIn := rfl
@[simp] theorem round_plIn (t : Fin 64) (s : State) : (round t s).plIn = s.plIn := rfl
@[simp] theorem round_cur (t : Fin 64) (s : State) : (round t s).cur = s.cur := rfl
@[simp] theorem round_rspOut (t : Fin 64) (s : State) : (round t s).rspOut = s.rspOut := rfl
@[simp] theorem round_rspReady (t : Fin 64) (s : State) : (round t s).rspReady = s.rspReady := rfl

/-! ### feedfwd -/

@[simp] theorem feedfwd_H (s : State) : (feedfwd s).H = feedSum s.H s.v := rfl
@[simp] theorem feedfwd_v (s : State) : (feedfwd s).v = s.v := rfl
@[simp] theorem feedfwd_W (s : State) : (feedfwd s).W = s.W := rfl
@[simp] theorem feedfwd_BUF (s : State) : (feedfwd s).BUF = s.BUF := rfl
@[simp] theorem feedfwd_LENB (s : State) : (feedfwd s).LENB = s.LENB := rfl
@[simp] theorem feedfwd_PHASE (s : State) : (feedfwd s).PHASE = s.PHASE := rfl
@[simp] theorem feedfwd_ERR (s : State) : (feedfwd s).ERR = s.ERR := rfl
@[simp] theorem feedfwd_ERRHDR (s : State) : (feedfwd s).ERRHDR = s.ERRHDR := rfl
@[simp] theorem feedfwd_T (s : State) : (feedfwd s).T = s.T := rfl
@[simp] theorem feedfwd_rstN (s : State) : (feedfwd s).rstN = s.rstN := rfl
@[simp] theorem feedfwd_cmdIn (s : State) : (feedfwd s).cmdIn = s.cmdIn := rfl
@[simp] theorem feedfwd_plIn (s : State) : (feedfwd s).plIn = s.plIn := rfl
@[simp] theorem feedfwd_cur (s : State) : (feedfwd s).cur = s.cur := rfl
@[simp] theorem feedfwd_rspOut (s : State) : (feedfwd s).rspOut = s.rspOut := rfl
@[simp] theorem feedfwd_rspReady (s : State) : (feedfwd s).rspReady = s.rspReady := rfl

end Sys2Proof.Machine
end

