-- ==== Sys2Proof/Laws/Compress.lean ====
section
/-! SUPPORT. Laws/Compress.lean: what `schedule` and `compress` can do: their frames, the final W, and the rounds as a fold
over the working registers. -/

namespace Sys2Proof.Machine

/-! ### Folds over an initial segment of the indices -/

theorem take_succ_finRange {m n : Nat} (h : n < m) :
    (List.finRange m).take (n + 1) = (List.finRange m).take n ++ [⟨n, h⟩] := by
  rw [List.take_add_one]
  simp [h]

/-! ### The schedule -/

theorem foldl_schedLoad (l : List (Fin 16)) (s : State) :
    l.foldl (fun s t => schedLoad t s) s =
      { s with W := l.foldl (fun W t => W.set t.val (memRead t s)) s.W } := by
  induction l generalizing s with
  | nil => rfl
  | cons t l ih => rw [List.foldl_cons, List.foldl_cons, ih]; rfl

/-- W[t] <- the recurrence of R144, on the array alone. -/
def expW (t : Fin 64) (W : Vector Word 64) : Vector Word 64 :=
  W.set t.val (W[t.val - 16] + ssig0 W[t.val - 15] + W[t.val - 7] + ssig1 W[t.val - 2])

theorem foldl_schedExp (l : List (Fin 64)) (s : State) :
    l.foldl (fun s t => schedExp t s) s = { s with W := l.foldl (fun W t => expW t W) s.W } := by
  induction l generalizing s with
  | nil => rfl
  | cons t l ih => rw [List.foldl_cons, List.foldl_cons, ih]; rfl

/-- The loads write the sixteen words of the block and nothing else. -/
theorem foldl_load_getElem (s : State) (W : Vector Word 64) (n : Nat) (hn : n ≤ 16) (t : Fin 16) (ht : t.val < n) :
    (((List.finRange 16).take n).foldl (fun W t => W.set t.val (memRead t s)) W)[t.val] = memRead t s := by
  induction n with
  | zero => omega
  | succ n ih =>
    rw [take_succ_finRange (by omega), List.foldl_append]
    simp only [List.foldl_cons, List.foldl_nil, Vector.getElem_set]
    split
    · next h => congr 1; exact Fin.ext h
    · next h => exact ih (by omega) (by omega)

/-- After the expansions of 16..15+n, the words below 16 are as before and the recurrence holds of the words written. -/
theorem foldl_exp_getElem (W : Vector Word 64) (n : Nat) (hn : n ≤ 48) :
    let W' := ((List.finRange 48).take n).foldl (fun W t => expW ⟨t.val + 16, by omega⟩ W) W
    (∀ t : Fin 16, W'[t.val] = W[t.val]) ∧
    (∀ t : Fin 48, t.val < n → W'[t.val + 16] = W'[t.val] + ssig0 W'[t.val + 1] + W'[t.val + 9] + ssig1 W'[t.val + 14]) := by
  induction n with
  | zero => exact ⟨fun _ => rfl, fun t h => absurd h (by omega)⟩
  | succ n ih =>
    obtain ⟨h1, h2⟩ := ih (by omega)
    rw [take_succ_finRange (by omega), List.foldl_append]
    simp only [List.foldl_cons, List.foldl_nil, expW]
    refine ⟨fun t => ?_, fun t ht => ?_⟩
    · rw [Vector.getElem_set_ne _ _ (by omega)]; exact h1 t
    · by_cases hq : t.val = n
      · subst hq
        rw [Vector.getElem_set_self, Vector.getElem_set_ne _ _ (by omega), Vector.getElem_set_ne _ _ (by omega),
          Vector.getElem_set_ne _ _ (by omega), Vector.getElem_set_ne _ _ (by omega)]
        simp
      · rw [Vector.getElem_set_ne _ _ (by omega), Vector.getElem_set_ne _ _ (by omega),
          Vector.getElem_set_ne _ _ (by omega), Vector.getElem_set_ne _ _ (by omega),
          Vector.getElem_set_ne _ _ (by omega)]
        exact h2 t (by omega)

theorem expIndices_eq : expIndices = (List.finRange 48).map fun t => ⟨t.val + 16, by omega⟩ := by decide

/-! ### The rounds -/

/-- The rounds on the working registers alone, with a fixed schedule. -/
def roundsRegs (W : Vector Word 64) (l : List (Fin 64)) (v : WorkRegs) : WorkRegs :=
  l.foldl (fun v t => roundRegs K[t.val] W[t.val] v) v

/-- Rounds write a..h and T only. -/
theorem foldl_round (l : List (Fin 64)) (s : State) :
    l.foldl (fun s t => round t s) s =
      { s with v := roundsRegs s.W l s.v, T := (l.foldl (fun s t => round t s) s).T } := by
  induction l generalizing s with
  | nil => rfl
  | cons t l ih =>
    rw [List.foldl_cons, ih]
    simp [roundsRegs, round]

theorem foldl_round_T (s : State) (n : Nat) (hn : n ≤ 64) (h0 : s.T = 0) :
    (((List.finRange 64).take n).foldl (fun s t => round t s) s).T = BitVec.ofNat 7 n := by
  cases n with
  | zero => simpa using h0
  | succ n =>
    rw [take_succ_finRange (by omega), List.foldl_append]
    simp

/-- The final schedule, from the block and the W before it. -/
@[irreducible] def scheduleW (B : Vector Byte 64) (W : Vector Word 64) : Vector Word 64 :=
  expIndices.foldl (fun W t => expW t W) ((List.finRange 16).foldl (fun W t => W.set t.val
    (be32 B[4 * t.val] B[4 * t.val + 1] B[4 * t.val + 2] B[4 * t.val + 3])) W)

/-- `schedule` writes W only. -/
theorem schedule_frame (s : State) : schedule s = { s with W := scheduleW s.BUF s.W } := by
  rw [schedule, schedExps, schedLoads, foldl_schedLoad, foldl_schedExp, scheduleW]
  rfl

/-- The steps of `compress` write H, W, a..h and T only, from H, W and BUF, and leave T = 64. -/
theorem compressSteps_eq (s : State) :
    compressSteps s =
      { s with H := feedSum s.H (roundsRegs (scheduleW s.BUF s.W) (List.finRange 64) (loadRegs s.H)),
               W := scheduleW s.BUF s.W,
               v := roundsRegs (scheduleW s.BUF s.W) (List.finRange 64) (loadRegs s.H),
               T := 64#7 } := by
  have hT := foldl_round_T (loadv (schedule s)) 64 (by omega) (by simp)
  rw [List.take_of_length_le (by simp)] at hT
  rw [compressSteps, rounds, foldl_round, hT, schedule_frame]
  rfl

/-- `compress` is its steps. -/
theorem compress_eq_steps (s : State) : compress s = compressSteps s := by
  simp [compress, compressSteps_eq]

/-- `compress` is `schedule`, LOADV, the rounds and FEEDFWD (R160). -/
theorem compress_eq (s : State) : compress s = feedfwd (rounds (loadv (schedule s))) := by
  rw [compress_eq_steps, compressSteps]

@[simp] theorem compress_BUF (s : State) : (compress s).BUF = s.BUF := rfl
@[simp] theorem compress_LENB (s : State) : (compress s).LENB = s.LENB := rfl
@[simp] theorem compress_PHASE (s : State) : (compress s).PHASE = s.PHASE := rfl
@[simp] theorem compress_ERR (s : State) : (compress s).ERR = s.ERR := rfl
@[simp] theorem compress_ERRHDR (s : State) : (compress s).ERRHDR = s.ERRHDR := rfl
@[simp] theorem compress_T (s : State) : (compress s).T = 64#7 := by
  rw [compress_eq_steps, compressSteps_eq]
@[simp] theorem compress_rstN (s : State) : (compress s).rstN = s.rstN := rfl
@[simp] theorem compress_cmdIn (s : State) : (compress s).cmdIn = s.cmdIn := rfl
@[simp] theorem compress_plIn (s : State) : (compress s).plIn = s.plIn := rfl
@[simp] theorem compress_cur (s : State) : (compress s).cur = s.cur := rfl
@[simp] theorem compress_rspOut (s : State) : (compress s).rspOut = s.rspOut := rfl
@[simp] theorem compress_rspReady (s : State) : (compress s).rspReady = s.rspReady := rfl

/-- `compress` neither reads nor writes PHASE and the response. -/
theorem compress_update (p : Phase) (r : Option Response) (s : State) :
    compress { s with PHASE := p, rspOut := r } = { compress s with PHASE := p, rspOut := r } := by
  simp only [compress_eq_steps, compressSteps_eq]

/-! ### The sixteen-word window -/

/-- The window moved on, word by word. -/
theorem windowNext_getElem (w : Vector Word 16) (i : Fin 16) :
    (windowNext w)[i.val] = if h : i.val < 15 then w[i.val + 1] else w[0] + ssig0 w[1] + w[9] + ssig1 w[14] := by
  rw [windowNext, Vector.getElem_ofFn]

end Sys2Proof.Machine
end

