-- ==== Sys2Proof/Laws/Decode.lean ====
section
/-! SUPPORT. Laws/Decode.lean: the fields of a header as numbers, the header of each command, and the decoder and encoder
by the number of the header. -/

namespace Sys2Proof

theorem opc_toNat (hdr : Hdr) : (opc hdr).toNat = hdr.toNat / 4096 := by
  have := hdr.isLt
  simp only [opc, BitVec.extractLsb'_toNat, Nat.shiftRight_eq_div_pow]; omega

theorem zeroField_toNat (hdr : Hdr) : (zeroField hdr).toNat = hdr.toNat / 256 % 16 := by
  simp only [zeroField, BitVec.extractLsb'_toNat, Nat.shiftRight_eq_div_pow]

theorem arg_toNat (hdr : Hdr) : (arg hdr).toNat = hdr.toNat % 256 := by
  simp only [arg, BitVec.extractLsb'_toNat, Nat.shiftRight_eq_div_pow]; omega

/-- A concatenation of two bit vectors as a number. -/
theorem toNat_append_eq {m n : Nat} (b : BitVec m) (a : BitVec n) : (b ++ a).toNat = b.toNat * 2 ^ n + a.toNat := by
  rw [BitVec.toNat_append, ← Nat.shiftLeft_add_eq_or_of_lt a.isLt, Nat.shiftLeft_eq]

@[simp] theorem opc_append (b : BitVec 8) (a : BitVec 8) : opc (b ++ a) = b.extractLsb' 4 4 := by
  apply BitVec.eq_of_toNat_eq
  rw [opc_toNat, toNat_append_eq]
  simp only [BitVec.extractLsb'_toNat, Nat.shiftRight_eq_div_pow]
  have := a.isLt; have := b.isLt; omega

@[simp] theorem zeroField_append (b : BitVec 8) (a : BitVec 8) : zeroField (b ++ a) = b.extractLsb' 0 4 := by
  apply BitVec.eq_of_toNat_eq
  rw [zeroField_toNat, toNat_append_eq]
  simp only [BitVec.extractLsb'_toNat, Nat.shiftRight_eq_div_pow]
  have := a.isLt; have := b.isLt; omega

@[simp] theorem arg_append (b : BitVec 8) (a : BitVec 8) : arg (b ++ a) = a := by
  apply BitVec.eq_of_toNat_eq
  rw [arg_toNat, toNat_append_eq]
  have := a.isLt; have := b.isLt; omega

/-- A header is its high byte and its ARG. -/
theorem hdr_eq_append (hdr : Hdr) : hdr = (hdr.extractLsb' 8 8 ++ arg hdr : Hdr) := by
  apply BitVec.eq_of_toNat_eq
  rw [toNat_append_eq, arg_toNat]
  simp only [BitVec.extractLsb'_toNat, Nat.shiftRight_eq_div_pow]
  have := hdr.isLt; omega

@[simp] theorem hdrOfBytes_hdrBytes (hdr : Hdr) : hdrOfBytes (hdr.extractLsb' 8 8) (hdr.extractLsb' 0 8) = hdr :=
  (hdr_eq_append hdr).symm

/-- The payload a command carries is the payload its header owns. -/
theorem plen_headerOf (i : Instr) (h : i.wf = true) : plen (headerOf i) = (payloadOf i).length := by
  cases i with
  | write p =>
    have h : p.length ≤ 255 := of_decide_eq_true h
    simp [plen, headerOf, payloadOf]; omega
  | absorb p =>
    have h : p.length ≤ 255 := of_decide_eq_true h
    simp [plen, headerOf, payloadOf]; omega
  | rdw i => simp [plen, headerOf, payloadOf]
  | rdb i => simp [plen, headerOf, payloadOf]
  | _ => simp [plen, headerOf, payloadOf, opc]

/-- No header owns more than 255 bytes. -/
theorem plen_le (hdr : Hdr) : plen hdr ≤ 255 := by
  unfold plen; have := (arg hdr).isLt; split <;> omega

/-- The decoder reads the header of a command back as that command. -/
theorem decodeCommand_headerOf (i : Instr) : decodeCommand (headerOf i) (payloadOf i) = .ok i := by
  cases i <;> simp [decodeCommand, headerOf, payloadOf] <;> decide

/-- A header with ZERO = 0 is its OPC and its ARG. -/
theorem hdr_eq_of_opc (hdr : Hdr) (o : Nat) (h0 : zeroField hdr = 0) (ho : (opc hdr).toNat = o) :
    hdr = (BitVec.ofNat 8 (16 * o) ++ arg hdr : Hdr) := by
  have h0' : hdr.toNat / 256 % 16 = 0 := by rw [← zeroField_toNat, h0]; rfl
  rw [opc_toNat] at ho
  apply BitVec.eq_of_toNat_eq
  rw [toNat_append_eq, arg_toNat]
  have := hdr.isLt
  simp only [BitVec.toNat_ofNat]; omega

/-- What decodes is the header and the payload of the command it decodes to. -/
theorem decodeCommand_ok (hdr : Hdr) (p : List Byte) (i : Instr) (hp : p.length = plen hdr)
    (h : decodeCommand hdr p = .ok i) :
    headerOf i = hdr ∧ payloadOf i = p := by
  unfold decodeCommand at h
  split at h
  · cases h
  next h0 =>
  have h0 : zeroField hdr = 0 := by simpa using h0
  have hq : ∀ o, (opc hdr).toNat = o → hdr = (BitVec.ofNat 8 (16 * o) ++ arg hdr : Hdr) := fun o => hdr_eq_of_opc hdr o h0
  have hnil : (opc hdr).toNat ≠ 2 → (opc hdr).toNat ≠ 3 → p = [] := by
    intro h2 h3
    have : plen hdr = 0 := by
      unfold plen
      rw [if_neg]
      rintro (h | h) <;> rw [h] at h2 h3 <;> simp at h2 h3
    exact List.eq_nil_of_length_eq_zero (hp.trans this)
  have hlen : (opc hdr).toNat = 2 ∨ (opc hdr).toNat = 3 → BitVec.ofNat 8 p.length = arg hdr := by
    intro ho
    have : plen hdr = (arg hdr).toNat := by
      unfold plen
      rw [if_pos]
      rcases ho with h | h
      · left; exact BitVec.eq_of_toNat_eq (by simpa using h)
      · right; exact BitVec.eq_of_toNat_eq (by simpa using h)
    rw [hp, this]; simp
  split at h
  all_goals first
    | (next ho =>
        split at h
        · next ha => cases h; rw [hnil (by omega) (by omega)]; refine ⟨?_, rfl⟩; rw [hq _ ho, ha]; rfl
        · cases h)
    | (next ho => cases h; refine ⟨?_, rfl⟩; conv_rhs => rw [hq _ ho]
                  simp [headerOf, hlen (by omega)])
    | (next ho => cases h; rw [hnil (by omega) (by omega)]; refine ⟨?_, rfl⟩; conv_rhs => rw [hq _ ho]
                  rfl)
    | cases h

/-- A command whose header owns its payload is well formed. -/
theorem wf_of_plen (i : Instr) (h : plen (headerOf i) = (payloadOf i).length) : i.wf = true := by
  have := plen_le (headerOf i)
  cases i <;> simp_all [Instr.wf, payloadOf, Config.payloadMax]

end Sys2Proof
end

