-- ==== Sys2Proof/Laws/Ops.lean ====
section
/-! SUPPORT. Laws/Ops.lean: what the shared operations can do: BUFCNT and the length test as numbers, the channels, BUF
read after write. -/

namespace Sys2Proof.Machine

theorem code_range (c : Cause) : 1 ≤ c.code.toNat ∧ c.code.toNat ≤ 8 := by cases c <;> decide

theorem statusOf_toNat (c : Cause) : (statusOf c).toNat = c.code.toNat := by cases c <;> decide

theorem statusOf_ne_OK (c : Cause) : statusOf c ≠ statusOK := by cases c <;> decide

theorem bufcnt_toNat (s : State) : (bufcnt s).toNat = s.LENB.toNat % 64 := by
  simp [bufcnt, BitVec.extractLsb'_toNat]

theorem bufcnt_eq_zero (s : State) : bufcnt s = 0 ↔ s.LENB.toNat % 64 = 0 := by
  rw [← bufcnt_toNat, ← BitVec.toNat_inj]; rfl

theorem lenOverflows_iff (n : Nat) (s : State) : lenOverflows n s = true ↔ 2 ^ 61 - 1 < s.LENB.toNat + n := by
  simp [lenOverflows, Config.lenMax]

/-- BUF read after a byte write: the byte written there, every other byte as before. -/
theorem memWrite_getElem (k j : Fin 64) (b : Byte) (s : State) :
    (memWrite k b s).BUF[j.val] = if k = j then b else s.BUF[j.val] := by
  simp [Vector.getElem_set, Fin.ext_iff]

/-- The channels hand over exactly the payload the header owns, or wait with what there is. -/
theorem takePayload_cases (hdr : Hdr) (got : List Byte) (s : State) :
    (got.length + s.plIn.length < plen hdr ∧
      takePayload hdr got s = .wait { s with plIn := [], cur := some ⟨hdr, got ++ s.plIn⟩ }) ∨
    (plen hdr ≤ got.length + s.plIn.length ∧
      takePayload hdr got s = .command hdr (got ++ s.plIn.take (plen hdr - got.length))
        { s with plIn := s.plIn.drop (plen hdr - got.length), cur := none }) := by
  by_cases h : got.length + s.plIn.length < plen hdr
  · refine .inl ⟨h, ?_⟩
    have h1 : s.plIn.take (plen hdr - got.length) = s.plIn := List.take_of_length_le (by omega)
    have h2 : s.plIn.drop (plen hdr - got.length) = [] := List.drop_of_length_le (by omega)
    simp [takePayload, h1, h2, h]
  · refine .inr ⟨by omega, ?_⟩
    have : ¬ (got.length + min (plen hdr - got.length) s.plIn.length < plen hdr) := by omega
    simp [takePayload, this]

/-- The rest of the payload is there: the command is taken with all its bytes in order. -/
theorem takePayload_done (hdr : Hdr) (got q more : List Byte) (s : State) (h : got.length + q.length = plen hdr)
    (hp : s.plIn = q ++ more) :
    takePayload hdr got s = .command hdr (got ++ q) { s with plIn := more, cur := none } := by
  simp [takePayload, hp, ← h]

/-- What `fetch` can do: reset, hold, idle, wait for payload, or one whole command with the ports moved on. -/
theorem fetch_cases (s : State) :
    (s.rstN = false ∧ fetch s = .wait (hardwareReset s)) ∨
    (s.rstN = true ∧ s.rspOut.isSome ∧ s.rspReady = false ∧ fetch s = .wait s) ∨
    (s.rstN = true ∧ s.cur = none ∧ s.cmdIn = [] ∧ fetch s = .wait (takeResponse s)) ∨
    (s.rstN = true ∧ ∃ c, s.cur = some c ∧ fetch s = takePayload c.hdr c.got (takeResponse s)) ∨
    (s.rstN = true ∧ s.cur = none ∧ ∃ hdr rest, s.cmdIn = hdr :: rest ∧
      fetch s = takePayload hdr [] { takeResponse s with cmdIn := rest }) := by
  unfold fetch
  split
  · next h => exact .inl ⟨h, rfl⟩
  next h =>
  have hr : s.rstN = true := by simpa using h
  split
  · next h2 => exact .inr (.inl ⟨hr, h2.1, h2.2, rfl⟩)
  split
  · next c hc => exact .inr (.inr (.inr (.inl ⟨hr, c, hc, rfl⟩)))
  · next hc =>
    split
    · next hi => exact .inr (.inr (.inl ⟨hr, hc, hi, rfl⟩))
    · next hdr rest hi => exact .inr (.inr (.inr (.inr ⟨hr, hc, hdr, rest, hi, rfl⟩)))

/-- A whole command at the front of the channels is taken whole. -/
theorem fetch_whole (s : State) (hdr : Hdr) (hdrs : List Hdr) (p more : List Byte)
    (hr : s.rstN = true) (ho : s.rspOut = none ∨ s.rspReady = true) (hc : s.cur = none)
    (hi : s.cmdIn = hdr :: hdrs) (hp : s.plIn = p ++ more) (hl : p.length = plen hdr) :
    fetch s = .command hdr p { s with cmdIn := hdrs, plIn := more, rspOut := none } := by
  have hh : ¬ (s.rspOut.isSome = true ∧ s.rspReady = false) := by
    rcases ho with h | h <;> simp [h]
  simp [fetch, hr, hh, hc, hi, takePayload, takeResponse, hp, ← hl]

/-- An offered command is what the next fetch takes. -/
theorem fetch_offerCommand (s : State) (hdr : Hdr) (p : List Byte) (hl : p.length = plen hdr) :
    fetch (offerCommand hdr p s) = .command hdr p { s with rspOut := none, cur := none, rstN := true, rspReady := true } := by
  rw [fetch_whole (offerCommand hdr p s) hdr s.cmdIn p s.plIn rfl (.inr rfl) rfl rfl rfl hl]
  rfl

/-- The registers of the engine agree; the ports may differ. -/
def SameEngine (s t : State) : Prop :=
  s.H = t.H ∧ s.v = t.v ∧ s.W = t.W ∧ s.BUF = t.BUF ∧ s.LENB = t.LENB ∧ s.PHASE = t.PHASE ∧
     s.ERR = t.ERR ∧ s.ERRHDR = t.ERRHDR ∧ s.T = t.T

/-- The channels change no register of the engine, but for hardware reset. -/
theorem fetch_core (s : State) :
    (s.rstN = false ∧ fetch s = .wait (hardwareReset s)) ∨
    (s.rstN = true ∧ ∃ u, fetch s = .wait u ∧ SameEngine s u) ∨
    (s.rstN = true ∧ ∃ hdr p u, fetch s = .command hdr p u ∧
      (p.length = plen hdr ∨ ∃ c, s.cur = some c ∧ plen c.hdr ≤ c.got.length) ∧
      SameEngine s u ∧ u.rspOut = none ∧ u.cur = none) := by
  rcases fetch_cases s with h | ⟨h1, h2, h3, h4⟩ | ⟨h1, h2, h3, h4⟩ | ⟨h1, c, h2, h3⟩ | ⟨h1, h2, hdr, rest, h3, h4⟩
  · exact .inl h
  · exact .inr (.inl ⟨h1, _, h4, by simp [SameEngine]⟩)
  · exact .inr (.inl ⟨h1, _, h4, by simp [SameEngine, takeResponse]⟩)
  · rcases takePayload_cases c.hdr c.got (takeResponse s) with ⟨h, e⟩ | ⟨h, e⟩
    · exact .inr (.inl ⟨h1, _, h3.trans e, by simp [SameEngine, takeResponse]⟩)
    · refine .inr (.inr ⟨h1, _, _, _, h3.trans e, ?_, by simp [SameEngine, takeResponse], by simp [takeResponse], rfl⟩)
      simp [takeResponse] at h ⊢
      by_cases hh : plen c.hdr ≤ c.got.length
      · exact .inr ⟨c, h2, hh⟩
      · left; omega
  · rcases takePayload_cases hdr [] { takeResponse s with cmdIn := rest } with ⟨h, e⟩ | ⟨h, e⟩
    · exact .inr (.inl ⟨h1, _, h4.trans e, by simp [SameEngine, takeResponse]⟩)
    · refine .inr (.inr ⟨h1, _, _, _, h4.trans e, ?_, by simp [SameEngine, takeResponse], by simp [takeResponse], rfl⟩)
      simp at h ⊢
      left; omega

end Sys2Proof.Machine
end

