-- ==== Sys2Proof/Laws/Ingest.lean ====
section
/-! SUPPORT. Laws/Ingest.lean: what absorb_byte and the payload loop can do. -/

namespace Sys2Proof.Machine

/-- The state after the byte is stored and counted, before the block boundary test. -/
def storeByte (b : Byte) (s : State) : State :=
  { memWrite (bufcnt s).toFin b s with LENB := s.LENB + 1 }

/-- absorb_byte: the byte stored and counted, and a compression exactly at the block boundary. -/
theorem absorbByte_eq (b : Byte) (s : State) :
    absorbByte b s = if (s.LENB.toNat + 1) % 64 = 0 then compress (storeByte b s) else storeByte b s := by
  have h : bufcnt (storeByte b s) = 0 ↔ (s.LENB.toNat + 1) % 64 = 0 := by
    rw [bufcnt_eq_zero]
    show (s.LENB + 1#61).toNat % 64 = 0 ↔ _
    rw [BitVec.toNat_add, show (1#61).toNat = 1 from rfl]; omega
  show (if bufcnt (storeByte b s) = 0 then _ else _) = _
  simp only [h]
  rfl

theorem storeByte_BUF (b : Byte) (s : State) (j : Fin 64) :
    (storeByte b s).BUF[j.val] = if j.val = s.LENB.toNat % 64 then b else s.BUF[j.val] := by
  have h := bufcnt_toNat s
  show (s.BUF.set (bufcnt s).toNat b (bufcnt s).isLt)[j.val] = _
  rw [Vector.getElem_set]
  simp only [h, eq_comm]

theorem storeByte_LENB (b : Byte) (s : State) (h : s.LENB.toNat < 2 ^ 61 - 1) :
    (storeByte b s).LENB.toNat = s.LENB.toNat + 1 := by
  show (s.LENB + 1#61).toNat = _
  rw [BitVec.toNat_add]
  have : (1#61).toNat = 1 := rfl
  rw [this]; omega

theorem absorbByte_BUF (b : Byte) (s : State) (j : Fin 64) :
    (absorbByte b s).BUF[j.val] = if j.val = s.LENB.toNat % 64 then b else s.BUF[j.val] := by
  rw [← storeByte_BUF, absorbByte_eq]; split <;> simp

theorem absorbByte_LENB (b : Byte) (s : State) (h : s.LENB.toNat < 2 ^ 61 - 1) :
    (absorbByte b s).LENB.toNat = s.LENB.toNat + 1 := by
  rw [← storeByte_LENB b s h, absorbByte_eq]; split <;> simp

@[simp] theorem absorbByte_PHASE (b : Byte) (s : State) : (absorbByte b s).PHASE = s.PHASE := by
  rw [absorbByte_eq]; split <;> simp [storeByte]
@[simp] theorem absorbByte_ERR (b : Byte) (s : State) : (absorbByte b s).ERR = s.ERR := by
  rw [absorbByte_eq]; split <;> simp [storeByte]
@[simp] theorem absorbByte_ERRHDR (b : Byte) (s : State) : (absorbByte b s).ERRHDR = s.ERRHDR := by
  rw [absorbByte_eq]; split <;> simp [storeByte]
@[simp] theorem absorbByte_rstN (b : Byte) (s : State) : (absorbByte b s).rstN = s.rstN := by
  rw [absorbByte_eq]; split <;> simp [storeByte]
@[simp] theorem absorbByte_cmdIn (b : Byte) (s : State) : (absorbByte b s).cmdIn = s.cmdIn := by
  rw [absorbByte_eq]; split <;> simp [storeByte]
@[simp] theorem absorbByte_plIn (b : Byte) (s : State) : (absorbByte b s).plIn = s.plIn := by
  rw [absorbByte_eq]; split <;> simp [storeByte]
@[simp] theorem absorbByte_cur (b : Byte) (s : State) : (absorbByte b s).cur = s.cur := by
  rw [absorbByte_eq]; split <;> simp [storeByte]
@[simp] theorem absorbByte_rspOut (b : Byte) (s : State) : (absorbByte b s).rspOut = s.rspOut := by
  rw [absorbByte_eq]; split <;> simp [storeByte]
@[simp] theorem absorbByte_rspReady (b : Byte) (s : State) : (absorbByte b s).rspReady = s.rspReady := by
  rw [absorbByte_eq]; split <;> simp [storeByte]

/-! ### The payload loop -/

@[simp] theorem absorbBytes_nil (s : State) : absorbBytes [] s = s := rfl

theorem absorbBytes_cons (b : Byte) (p : List Byte) (s : State) :
    absorbBytes (b :: p) s = absorbBytes p (absorbByte b s) := rfl

theorem absorbBytes_append (p q : List Byte) (s : State) :
    absorbBytes (p ++ q) s = absorbBytes q (absorbBytes p s) := List.foldl_append

/-- The loop touches no control register and no port. -/
theorem absorbBytes_frame (p : List Byte) (s : State) :
    (absorbBytes p s).PHASE = s.PHASE ∧ (absorbBytes p s).ERR = s.ERR ∧ (absorbBytes p s).ERRHDR = s.ERRHDR ∧
    (absorbBytes p s).rstN = s.rstN ∧ (absorbBytes p s).cmdIn = s.cmdIn ∧ (absorbBytes p s).plIn = s.plIn ∧
    (absorbBytes p s).cur = s.cur ∧ (absorbBytes p s).rspOut = s.rspOut ∧ (absorbBytes p s).rspReady = s.rspReady := by
  induction p generalizing s with
  | nil => simp
  | cons b p ih => simpa [absorbBytes_cons] using ih (absorbByte b s)

@[simp] theorem absorbBytes_PHASE (p : List Byte) (s : State) : (absorbBytes p s).PHASE = s.PHASE :=
  (absorbBytes_frame p s).1
@[simp] theorem absorbBytes_ERR (p : List Byte) (s : State) : (absorbBytes p s).ERR = s.ERR :=
  (absorbBytes_frame p s).2.1
@[simp] theorem absorbBytes_ERRHDR (p : List Byte) (s : State) : (absorbBytes p s).ERRHDR = s.ERRHDR :=
  (absorbBytes_frame p s).2.2.1
@[simp] theorem absorbBytes_rstN (p : List Byte) (s : State) : (absorbBytes p s).rstN = s.rstN :=
  (absorbBytes_frame p s).2.2.2.1
@[simp] theorem absorbBytes_cmdIn (p : List Byte) (s : State) : (absorbBytes p s).cmdIn = s.cmdIn :=
  (absorbBytes_frame p s).2.2.2.2.1
@[simp] theorem absorbBytes_plIn (p : List Byte) (s : State) : (absorbBytes p s).plIn = s.plIn :=
  (absorbBytes_frame p s).2.2.2.2.2.1
@[simp] theorem absorbBytes_cur (p : List Byte) (s : State) : (absorbBytes p s).cur = s.cur :=
  (absorbBytes_frame p s).2.2.2.2.2.2.1
@[simp] theorem absorbBytes_rspOut (p : List Byte) (s : State) : (absorbBytes p s).rspOut = s.rspOut :=
  (absorbBytes_frame p s).2.2.2.2.2.2.2.1
@[simp] theorem absorbBytes_rspReady (p : List Byte) (s : State) : (absorbBytes p s).rspReady = s.rspReady :=
  (absorbBytes_frame p s).2.2.2.2.2.2.2.2

/-- absorb_byte neither reads nor writes PHASE and the response. -/
theorem absorbByte_update (b : Byte) (p : Phase) (r : Option Response) (s : State) :
    absorbByte b { s with PHASE := p, rspOut := r } = { absorbByte b s with PHASE := p, rspOut := r } := by
  simp only [absorbByte_eq]
  split
  · exact compress_update p r (storeByte b s)
  · rfl

/-- The payload loop neither reads nor writes PHASE and the response. -/
theorem absorbBytes_update (q : List Byte) (p : Phase) (r : Option Response) (s : State) :
    absorbBytes q { s with PHASE := p, rspOut := r } = { absorbBytes q s with PHASE := p, rspOut := r } := by
  induction q generalizing s with
  | nil => rfl
  | cons b q ih => rw [absorbBytes_cons, absorbBytes_cons, absorbByte_update, ih]

/-- T stays in its range: a byte leaves it alone or a block leaves it at 64. -/
theorem absorbBytes_T (p : List Byte) (s : State) (h : s.T.toNat ≤ 64) : (absorbBytes p s).T.toNat ≤ 64 := by
  induction p generalizing s with
  | nil => exact h
  | cons b p ih =>
    rw [absorbBytes_cons]
    apply ih
    rw [absorbByte_eq]
    split
    · simp
    · exact h

theorem absorbBytes_LENB (p : List Byte) (s : State) (h : s.LENB.toNat + p.length ≤ 2 ^ 61 - 1) :
    (absorbBytes p s).LENB.toNat = s.LENB.toNat + p.length := by
  induction p generalizing s with
  | nil => simp
  | cons b p ih =>
    simp only [List.length_cons] at h ⊢
    have h1 := absorbByte_LENB b s (by omega)
    rw [absorbBytes_cons, ih _ (by omega), h1]; omega

/-- A byte of BUF that no payload byte is stored to keeps its value. -/
theorem absorbBytes_BUF_other (p : List Byte) (s : State) (h : s.LENB.toNat + p.length ≤ 2 ^ 61 - 1) (j : Fin 64)
    (hj : ∀ k < p.length, (s.LENB.toNat + k) % 64 ≠ j.val) : (absorbBytes p s).BUF[j.val] = s.BUF[j.val] := by
  induction p generalizing s with
  | nil => simp
  | cons b p ih =>
    simp only [List.length_cons] at h hj
    have h1 := absorbByte_LENB b s (by omega)
    have h0 := hj 0 (by omega)
    rw [absorbBytes_cons, ih _ (by omega), absorbByte_BUF, if_neg (by omega)]
    intro k hk
    rw [h1]
    have := hj (k + 1) (by omega)
    omega

/-- While no block is completed the loop only stores and counts. -/
theorem absorbBytes_noBoundary (p : List Byte) (s : State) (h : s.LENB.toNat + p.length ≤ 2 ^ 61 - 1)
    (hb : s.LENB.toNat % 64 + p.length < 64) :
    (absorbBytes p s).H = s.H ∧ (absorbBytes p s).v = s.v ∧ (absorbBytes p s).W = s.W ∧ (absorbBytes p s).T = s.T ∧
    ∀ j : Fin 64, s.LENB.toNat % 64 ≤ j.val → j.val < s.LENB.toNat % 64 + p.length →
      (absorbBytes p s).BUF[j.val] = p.getD (j.val - s.LENB.toNat % 64) 0 := by
  induction p generalizing s with
  | nil =>
    refine ⟨rfl, rfl, rfl, rfl, fun j h1 h2 => absurd h2 (by simp; omega)⟩
  | cons b p ih =>
    simp only [List.length_cons] at h hb
    have h1 := absorbByte_LENB b s (by omega)
    have hs : absorbByte b s = storeByte b s := by rw [absorbByte_eq, if_neg (by omega)]
    obtain ⟨i1, i2, i3, i4, i5⟩ := ih (absorbByte b s) (by omega) (by omega)
    rw [absorbBytes_cons]
    refine ⟨i1.trans (by rw [hs]; rfl), i2.trans (by rw [hs]; rfl), i3.trans (by rw [hs]; rfl),
      i4.trans (by rw [hs]; rfl), fun j h2 h3 => ?_⟩
    simp only [List.length_cons] at h3
    by_cases hj : j.val = s.LENB.toNat % 64
    · rw [absorbBytes_BUF_other p _ (by omega) j (by intro k hk; omega), absorbByte_BUF, if_pos hj, hj]
      simp
    · rw [i5 j (by omega) (by omega), show j.val - s.LENB.toNat % 64 = (j.val - (absorbByte b s).LENB.toNat % 64) + 1 by omega]
      simp

end Sys2Proof.Machine
end

