-- ==== Sys2Proof/Laws/Exec.lean ====
section
/-! SUPPORT. Laws/Exec.lean: the frames of the bodies of ABSORB and FINALIZE, and everything that exec can do, said once. -/

namespace Sys2Proof.Machine

/-! ### The body of ABSORB -/

@[simp] theorem absorbBlock_PHASE (p : List Byte) (s : State) : (absorbBlock p s).PHASE = s.PHASE := rfl
@[simp] theorem absorbBlock_ERR (p : List Byte) (s : State) : (absorbBlock p s).ERR = s.ERR := rfl
@[simp] theorem absorbBlock_ERRHDR (p : List Byte) (s : State) : (absorbBlock p s).ERRHDR = s.ERRHDR := rfl
@[simp] theorem absorbBlock_T (p : List Byte) (s : State) : (absorbBlock p s).T = 64#7 := by simp [absorbBlock]
@[simp] theorem absorbBlock_BUF (p : List Byte) (s : State) : (absorbBlock p s).BUF = payloadBlock p := rfl
@[simp] theorem absorbBlock_LENB (p : List Byte) (s : State) : (absorbBlock p s).LENB = s.LENB + 64 := rfl
@[simp] theorem absorbBlock_rstN (p : List Byte) (s : State) : (absorbBlock p s).rstN = s.rstN := rfl
@[simp] theorem absorbBlock_cmdIn (p : List Byte) (s : State) : (absorbBlock p s).cmdIn = s.cmdIn := rfl
@[simp] theorem absorbBlock_plIn (p : List Byte) (s : State) : (absorbBlock p s).plIn = s.plIn := rfl
@[simp] theorem absorbBlock_cur (p : List Byte) (s : State) : (absorbBlock p s).cur = s.cur := rfl
@[simp] theorem absorbBlock_rspOut (p : List Byte) (s : State) : (absorbBlock p s).rspOut = s.rspOut := rfl
@[simp] theorem absorbBlock_rspReady (p : List Byte) (s : State) : (absorbBlock p s).rspReady = s.rspReady := rfl

theorem add64_toNat (s : State) (h : s.LENB.toNat + 64 ≤ 2 ^ 61 - 1) : (s.LENB + 64).toNat = s.LENB.toNat + 64 := by
  show (s.LENB + 64#61).toNat = _
  rw [BitVec.toNat_add, show (64#61).toNat = 64 from rfl]; omega

/-! ### The body of FINALIZE -/

/-- Block 1 before the length field: the waiting bytes, 0x80, zeros. -/
def markedBlock (s : State) : Vector Byte 64 :=
  (padZero ((bufcnt s).toNat + 1) 63 (padMark (bufcnt s).toFin s)).BUF

theorem markedBlock_getElem (s : State) (j : Fin 64) :
    (markedBlock s)[j.val] =
      if j.val < s.LENB.toNat % 64 then s.BUF[j.val] else if j.val = s.LENB.toNat % 64 then 0x80#8 else 0x00#8 := by
  have h := bufcnt_toNat s
  simp only [markedBlock, padZero_BUF, zeroRange, Vector.getElem_ofFn, padMark, memWrite_BUF]
  have e : ((bufcnt s).toFin : Fin (2 ^ 6)).val = s.LENB.toNat % 64 := h
  simp only [h]
  by_cases h1 : j.val < s.LENB.toNat % 64
  · rw [if_neg (by omega), if_pos h1, Vector.getElem_set_ne _ _ (by omega)]
  · by_cases h2 : j.val = s.LENB.toNat % 64
    · rw [if_neg (by omega), if_neg h1, if_pos h2]
      simp only [Vector.getElem_set]
      rw [if_pos (by omega)]
    · rw [if_pos (by omega), if_neg h1, if_neg h2]

/-- The state that the padding of block 1 leaves, with its BUF named. -/
theorem padded_first (s : State) :
    padZero ((bufcnt s).toNat + 1) 63 (padMark (bufcnt s).toFin s) = { s with BUF := markedBlock s } := rfl

theorem padBlocks_eq (s : State) :
    padBlocks s = compress (padLen (if 56 ≤ s.LENB.toNat % 64 then padSpill { s with BUF := markedBlock s }
      else { s with BUF := markedBlock s })) := by
  rw [← bufcnt_toNat]; rfl

@[simp] theorem padBlocks_LENB (s : State) : (padBlocks s).LENB = s.LENB := by
  rw [padBlocks_eq]; split <;> simp [padSpill]
@[simp] theorem padBlocks_PHASE (s : State) : (padBlocks s).PHASE = s.PHASE := by
  rw [padBlocks_eq]; split <;> simp [padSpill]
@[simp] theorem padBlocks_ERR (s : State) : (padBlocks s).ERR = s.ERR := by
  rw [padBlocks_eq]; split <;> simp [padSpill]
@[simp] theorem padBlocks_ERRHDR (s : State) : (padBlocks s).ERRHDR = s.ERRHDR := by
  rw [padBlocks_eq]; split <;> simp [padSpill]
@[simp] theorem padBlocks_rstN (s : State) : (padBlocks s).rstN = s.rstN := by
  rw [padBlocks_eq]; split <;> simp [padSpill]
@[simp] theorem padBlocks_cmdIn (s : State) : (padBlocks s).cmdIn = s.cmdIn := by
  rw [padBlocks_eq]; split <;> simp [padSpill]
@[simp] theorem padBlocks_plIn (s : State) : (padBlocks s).plIn = s.plIn := by
  rw [padBlocks_eq]; split <;> simp [padSpill]
@[simp] theorem padBlocks_cur (s : State) : (padBlocks s).cur = s.cur := by
  rw [padBlocks_eq]; split <;> simp [padSpill]
@[simp] theorem padBlocks_rspOut (s : State) : (padBlocks s).rspOut = s.rspOut := by
  rw [padBlocks_eq]; split <;> simp [padSpill]
@[simp] theorem padBlocks_rspReady (s : State) : (padBlocks s).rspReady = s.rspReady := by
  rw [padBlocks_eq]; split <;> simp [padSpill]
@[simp] theorem padBlocks_T (s : State) : (padBlocks s).T = 64#7 := by
  rw [padBlocks_eq]; simp

/-! ### exec, said once -/

/-- The next state of an accepted command that is neither initialising nor a read. -/
inductive Accepts (s : State) : Instr → State → Prop where
  | write (p : List Byte) (h : s.LENB.toNat + p.length ≤ 2 ^ 61 - 1) :
      Accepts s (.write p) (absorbBytes p { s with PHASE := .absorbing })
  | absorb (p : List Byte) (hl : p.length = 64) (ha : s.LENB.toNat % 64 = 0) (h : s.LENB.toNat + 64 ≤ 2 ^ 61 - 1) :
      Accepts s (.absorb p) (absorbBlock p { s with PHASE := .absorbing })
  | finalize : Accepts s .finalize { padBlocks { s with PHASE := .padding } with PHASE := .finalized }

/-- When a command faults in a state whose phase is not FAULT, and with which cause. -/
inductive Faults (s : State) : Instr → Cause → Prop where
  | srcerr : Faults s .srcerr .E_SRCERR
  | finalFinalize (h : s.PHASE = .finalized) : Faults s .finalize .E_FINAL
  | finalWrite (p : List Byte) (h : s.PHASE = .finalized) : Faults s (.write p) .E_FINAL
  | overWrite (p : List Byte) (h : s.PHASE ≠ .finalized) (ho : 2 ^ 61 - 1 < s.LENB.toNat + p.length) :
      Faults s (.write p) .E_LENOVF
  | length (p : List Byte) (h : p.length ≠ 64) : Faults s (.absorb p) .E_BLOCKLEN
  | finalAbsorb (p : List Byte) (hl : p.length = 64) (h : s.PHASE = .finalized) : Faults s (.absorb p) .E_FINAL
  | align (p : List Byte) (hl : p.length = 64) (h : s.PHASE ≠ .finalized) (ha : s.LENB.toNat % 64 ≠ 0) :
      Faults s (.absorb p) .E_ALIGN
  | overAbsorb (p : List Byte) (hl : p.length = 64) (h : s.PHASE ≠ .finalized) (ha : s.LENB.toNat % 64 = 0)
      (ho : 2 ^ 61 - 1 < s.LENB.toNat + 64) : Faults s (.absorb p) .E_LENOVF
  | indexWord (x : BitVec 8) (h : 7 < x.toNat) : Faults s (.rdw x) .E_INDEX
  | earlyWord (x : BitVec 8) (h : x.toNat ≤ 7) (hz : s.PHASE ≠ .finalized) : Faults s (.rdw x) .E_NODIGEST
  | indexByte (x : BitVec 8) (h : 31 < x.toNat) : Faults s (.rdb x) .E_INDEX
  | earlyByte (x : BitVec 8) (h : x.toNat ≤ 31) (hz : s.PHASE ≠ .finalized) : Faults s (.rdb x) .E_NODIGEST

/-- INIT, RESET and RDSTAT never fault. -/
theorem Faults.not_exempt {s : State} {i : Instr} {c : Cause} (h : Faults s i c) : i ≠ .init ∧ i ≠ .reset ∧ i ≠ .rdstat := by
  cases h <;> simp

/-- Everything exec can do. -/
inductive ExecCase (s : State) : Instr → State → Prop where
  | initialise (i : Instr) (h : i = .init ∨ i = .reset) : ExecCase s i (respond statusOK 0 (initialise s))
  | status : ExecCase s .rdstat (respond statusOK (statusWord s) s)
  | faulted (i : Instr) (hp : s.PHASE = .fault) (h1 : i ≠ .init) (h2 : i ≠ .reset) (h3 : i ≠ .rdstat) :
      ExecCase s i (answerFaulted s)
  | faults (i : Instr) (c : Cause) (hp : s.PHASE ≠ .fault) (h : Faults s i c) :
      ExecCase s i (raiseFault c (headerOf i) s)
  | word (x : BitVec 8) (hp : s.PHASE = .finalized) (h : x.toNat ≤ 7) :
      ExecCase s (.rdw x) (respond statusOK (s.H[x.toNat]) s)
  | byte (x : BitVec 8) (hp : s.PHASE = .finalized) (h : x.toNat ≤ 31) :
      ExecCase s (.rdb x) (respond statusOK ((digestByte s.H ⟨x.toNat, by omega⟩).setWidth 32) s)
  | accepts (i : Instr) (u : State) (h1 : s.PHASE ≠ .fault) (h2 : s.PHASE ≠ .finalized) (h : Accepts s i u) :
      ExecCase s i (respond statusOK 0 u)

theorem exec_cases (i : Instr) (s : State) : ∃ t, exec i s = .next t ∧ ExecCase s i t := by
  cases i with
  | init => exact ⟨_, rfl, .initialise _ (.inl rfl)⟩
  | reset => exact ⟨_, rfl, .initialise _ (.inr rfl)⟩
  | rdstat => exact ⟨_, rfl, .status⟩
  | srcerr =>
    by_cases hf : s.PHASE = .fault
    · exact ⟨_, by simp only [exec, execSrcerr, if_pos hf], .faulted _ hf (by simp) (by simp) (by simp)⟩
    · exact ⟨_, by simp only [exec, execSrcerr, if_neg hf], .faults _ _ hf .srcerr⟩
  | finalize =>
    by_cases hf : s.PHASE = .fault
    · exact ⟨_, by simp only [exec, execFinalize, if_pos hf], .faulted _ hf (by simp) (by simp) (by simp)⟩
    by_cases hz : s.PHASE = .finalized
    · exact ⟨_, by simp only [exec, execFinalize, if_neg hf, if_pos hz], .faults _ _ hf (.finalFinalize hz)⟩
    · exact ⟨_, by simp only [exec, execFinalize, if_neg hf, if_neg hz], .accepts _ _ hf hz .finalize⟩
  | write p =>
    by_cases hf : s.PHASE = .fault
    · exact ⟨_, by simp only [exec, execWrite, if_pos hf], .faulted _ hf (by simp) (by simp) (by simp)⟩
    by_cases hz : s.PHASE = .finalized
    · exact ⟨_, by simp only [exec, execWrite, if_neg hf, if_pos hz], .faults _ _ hf (.finalWrite p hz)⟩
    by_cases ho : lenOverflows p.length s = true
    · exact ⟨_, by simp only [exec, execWrite, if_neg hf, if_neg hz, if_pos ho],
        .faults _ _ hf (.overWrite p hz ((lenOverflows_iff _ _).1 ho))⟩
    · refine ⟨_, by simp only [exec, execWrite, if_neg hf, if_neg hz, if_neg ho], .accepts _ _ hf hz (.write p ?_)⟩
      rw [lenOverflows_iff] at ho; omega
  | absorb p =>
    by_cases hf : s.PHASE = .fault
    · exact ⟨_, by simp only [exec, execAbsorb, if_pos hf], .faulted _ hf (by simp) (by simp) (by simp)⟩
    by_cases hl : p.length ≠ 64
    · exact ⟨_, by simp only [exec, execAbsorb, if_neg hf, if_pos hl], .faults _ _ hf (.length p hl)⟩
    by_cases hz : s.PHASE = .finalized
    · exact ⟨_, by simp only [exec, execAbsorb, if_neg hf, if_neg hl, if_pos hz],
        .faults _ _ hf (.finalAbsorb p (not_not.1 hl) hz)⟩
    by_cases hb : bufcnt s ≠ 0
    · exact ⟨_, by simp only [exec, execAbsorb, if_neg hf, if_neg hl, if_neg hz, if_pos hb],
        .faults _ _ hf (.align p (not_not.1 hl) hz ((bufcnt_eq_zero s).not.1 hb))⟩
    by_cases ho : lenOverflows 64 s = true
    · exact ⟨_, by simp only [exec, execAbsorb, if_neg hf, if_neg hl, if_neg hz, if_neg hb, if_pos ho],
        .faults _ _ hf (.overAbsorb p (not_not.1 hl) hz ((bufcnt_eq_zero s).1 (not_not.1 hb)) ((lenOverflows_iff _ _).1 ho))⟩
    · refine ⟨_, by simp only [exec, execAbsorb, if_neg hf, if_neg hl, if_neg hz, if_neg hb, if_neg ho],
        .accepts _ _ hf hz (.absorb p (by omega) ?_ ?_)⟩
      · rw [← bufcnt_eq_zero]; simpa using hb
      · rw [lenOverflows_iff] at ho; omega
  | rdw x =>
    by_cases hf : s.PHASE = .fault
    · exact ⟨_, by simp only [exec, execRdw, if_pos hf], .faulted _ hf (by simp) (by simp) (by simp)⟩
    by_cases hx : x.toNat > 7
    · exact ⟨_, by simp only [exec, execRdw, if_neg hf, dif_pos hx], .faults _ _ hf (.indexWord x hx)⟩
    by_cases hz : s.PHASE ≠ .finalized
    · exact ⟨_, by simp only [exec, execRdw, if_neg hf, dif_neg hx, if_pos hz],
        .faults _ _ hf (.earlyWord x (by omega) hz)⟩
    · exact ⟨_, by simp only [exec, execRdw, if_neg hf, dif_neg hx, if_neg hz], .word x (by simpa using hz) (by omega)⟩
  | rdb x =>
    by_cases hf : s.PHASE = .fault
    · exact ⟨_, by simp only [exec, execRdb, if_pos hf], .faulted _ hf (by simp) (by simp) (by simp)⟩
    by_cases hx : x.toNat > 31
    · exact ⟨_, by simp only [exec, execRdb, if_neg hf, dif_pos hx], .faults _ _ hf (.indexByte x hx)⟩
    by_cases hz : s.PHASE ≠ .finalized
    · exact ⟨_, by simp only [exec, execRdb, if_neg hf, dif_neg hx, if_pos hz],
        .faults _ _ hf (.earlyByte x (by omega) hz)⟩
    · exact ⟨_, by simp only [exec, execRdb, if_neg hf, dif_neg hx, if_neg hz], .byte x (by simpa using hz) (by omega)⟩

/-- The inversion form: a next state of exec is one of the cases. -/
theorem exec_next {i : Instr} {s t : State} (h : exec i s = .next t) : ExecCase s i t := by
  obtain ⟨u, hu, hc⟩ := exec_cases i s
  rw [h] at hu
  cases hu
  exact hc

/-- exec touches no port but the response, and always gives one. -/
theorem exec_ports (i : Instr) (s : State) : ∃ t, exec i s = .next t ∧
    t.rstN = s.rstN ∧ t.cmdIn = s.cmdIn ∧ t.plIn = s.plIn ∧ t.cur = s.cur ∧ t.rspReady = s.rspReady ∧ t.rspOut ≠ none := by
  obtain ⟨t, ht, hc⟩ := exec_cases i s
  refine ⟨t, ht, ?_⟩
  cases hc with
  | accepts i u h1 h2 h => cases h <;> simp
  | _ => simp [answerFaulted, raiseFault, initialise]

end Sys2Proof.Machine
end

