-- ==== Sys2Proof/Laws/Message.lean ====
section
/-! SUPPORT. Laws/Message.lean: blocks of a message and `compress` over them. -/

namespace Sys2Proof.Machine

theorem blockAt_getElem (M : List Byte) (k i : Nat) (hi : i < 64) : (blockAt M k)[i] = M.getD (64 * k + i) 0 := by
  simp [blockAt]

/-- A block that M fills is not changed by what is appended to M. -/
theorem blockAt_append (M N : List Byte) (k : Nat) (h : 64 * (k + 1) ≤ M.length) : blockAt (M ++ N) k = blockAt M k := by
  ext i hi
  rw [blockAt_getElem _ _ _ hi, blockAt_getElem _ _ _ hi]
  simp [List.getD, List.getElem?_append, show 64 * k + i < M.length by omega]

theorem hashFrom_zero (H : Vector Word 8) (M : List Byte) : hashFrom H M 0 = H := by simp [hashFrom]

theorem hashFrom_succ (H : Vector Word 8) (M : List Byte) (n : Nat) :
    hashFrom H M (n + 1) = compressFn (hashFrom H M n) (blockAt M n) := by
  simp [hashFrom, List.range_succ]

/-- The blocks that M fills give what they give in any longer byte string. -/
theorem hashFrom_append (H : Vector Word 8) (M N : List Byte) (n : Nat) (h : 64 * n ≤ M.length) :
    hashFrom H (M ++ N) n = hashFrom H M n := by
  induction n with
  | zero => rw [hashFrom_zero, hashFrom_zero]
  | succ n ih => rw [hashFrom_succ, hashFrom_succ, ih (by omega), blockAt_append _ _ _ h]

theorem hashBlocks_zero (M : List Byte) : hashBlocks M 0 = IV := by rw [hashBlocks, hashFrom_zero]

theorem hashBlocks_succ (M : List Byte) (n : Nat) :
    hashBlocks M (n + 1) = compressFn (hashBlocks M n) (blockAt M n) := by
  rw [hashBlocks, hashFrom_succ, hashBlocks]

/-- The blocks that M fills give what they give in any longer message. -/
theorem hashBlocks_append (M N : List Byte) (n : Nat) (h : 64 * n ≤ M.length) : hashBlocks (M ++ N) n = hashBlocks M n := by
  rw [hashBlocks, hashFrom_append _ _ _ _ h, hashBlocks]

/-- `Absorbed` looks at LENB, H and BUF only. -/
theorem State.Absorbed.of_eq {M : List Byte} {s t : State} (h : s.Absorbed M) (h1 : t.LENB = s.LENB) (h2 : t.H = s.H)
    (h3 : t.BUF = s.BUF) : t.Absorbed M :=
  ⟨h1 ▸ h.len, h2 ▸ h.hash, h3 ▸ h.tail⟩

end Sys2Proof.Machine
end

