-- ==== Sys2Proof/Laws/PerInstr.lean ====
section
/-! SUPPORT. Laws/PerInstr.lean: per-instruction families (LAWS.json). -/

/-- The header of a command has its own row of the opcode table (30_encoding.md R73, R81): its bits under the row's mask
are the row's pattern, and the row's mnemonic is the command's. -/
def Sys2Proof.Laws.HeaderRow.Statement (i : Sys2Proof.Instr) : Prop :=
  ∃ row ∈ Sys2Proof.opcodeRows, row.mnemonic = Sys2Proof.mnemonicOf i ∧
    Sys2Proof.headerOf i &&& row.mask = row.pattern

namespace Sys2Proof.Laws.HeaderRow

theorem mask_bits : ∀ k : Fin 16, (0xFF00#16)[k.val] = decide (8 ≤ k.val) := by decide

/-- The two high hexadecimal digits of a header under the mask of the rows with an operand. -/
theorem mask_operand (b a : BitVec 8) : ((b ++ a : Hdr) &&& 0xFF00#16) = b ++ 0#8 := by
  ext i hi
  simp only [BitVec.getElem_and, mask_bits ⟨i, hi⟩, BitVec.getElem_append]
  by_cases h8 : i < 8
  · simp [h8]
  · simp [h8]; omega

theorem init : Statement .init := ⟨⟨"INIT", 0xFFFF#16, 0x1000#16⟩, by decide, rfl, rfl⟩

theorem write (payload : List Byte) : Statement (.write payload) :=
  ⟨⟨"WRITE", 0xFF00#16, 0x2000#16⟩, by decide, rfl, mask_operand 0x20#8 _⟩

theorem absorb (payload : List Byte) : Statement (.absorb payload) :=
  ⟨⟨"ABSORB", 0xFF00#16, 0x3000#16⟩, by decide, rfl, mask_operand 0x30#8 _⟩

theorem finalize : Statement .finalize := ⟨⟨"FINALIZE", 0xFFFF#16, 0x4000#16⟩, by decide, rfl, rfl⟩

theorem reset : Statement .reset := ⟨⟨"RESET", 0xFFFF#16, 0x5000#16⟩, by decide, rfl, rfl⟩

theorem rdw (i : BitVec 8) : Statement (.rdw i) :=
  ⟨⟨"RDW", 0xFF00#16, 0x6000#16⟩, by decide, rfl, mask_operand 0x60#8 i⟩

theorem rdb (j : BitVec 8) : Statement (.rdb j) :=
  ⟨⟨"RDB", 0xFF00#16, 0x7000#16⟩, by decide, rfl, mask_operand 0x70#8 j⟩

theorem rdstat : Statement .rdstat := ⟨⟨"RDSTAT", 0xFFFF#16, 0x8000#16⟩, by decide, rfl, rfl⟩

theorem srcerr : Statement .srcerr := ⟨⟨"SRCERR", 0xFFFF#16, 0x9000#16⟩, by decide, rfl, rfl⟩

end Sys2Proof.Laws.HeaderRow
end

