-- ==== Sys2Proof/Tests/Slice0.lean ====
section
/-! SUPPORT. Tests/Slice0.lean: tests with expected values from spec/95_test_vectors.md and the rules' own examples, and a
witness for the hypotheses of each statement. -/

namespace Sys2Proof.Tests

-- One theorem after another: each `decide +kernel` in parallel takes a thread and its memory.
set_option Elab.async false

open Sys2Proof Sys2Proof.Machine

/-! ### Helpers -/

/-- The next state, if there is one. -/
def after (o : Host.Outcome State Fault Refusal) : Option State :=
  match o with
  | .next t => some t
  | .fault _ => none
  | .refused _ => none

theorem of_after {o : Host.Outcome State Fault Refusal} {t : State} (h : after o = some t) : o = .next t := by
  cases o <;> simp_all [after]

/-- A check on the next state of one command. -/
def holds (i : Instr) (s : State) (p : State → Bool) : Bool :=
  match after (exec i s) with
  | some t => p t
  | none => false

theorem of_holds {i : Instr} {s : State} {p : State → Bool} (h : holds i s p = true) :
    ∃ t, exec i s = .next t ∧ p t = true := by
  unfold holds at h
  split at h
  · next t ht => exact ⟨t, of_after ht, h⟩
  · cases h

/-- The response of a state is the one given. -/
def answers (st : BitVec 8) (d : Word) (t : State) : Bool := decide (t.rspOut = some ⟨st, d⟩)

/-- A command offered to the channels. -/
def fed (i : Instr) (s : State) : State := offerCommand (headerOf i) (payloadOf i) s

/-- After INIT; WRITE "abc". -/
def sAbc : State :=
  { State.reset with PHASE := .absorbing, LENB := 3, BUF := payloadBlock [0x61#8, 0x62#8, 0x63#8] }

/-- After INIT; WRITE "abc"; FINALIZE, in what a host can see (spec/95_test_vectors.md K2). -/
def sFin : State :=
  { State.reset with PHASE := .finalized, LENB := 3,
                     H := #v[0xba7816bf#32, 0x8f01cfea#32, 0x414140de#32, 0x5dae2223#32,
                             0xb00361a3#32, 0x96177a9c#32, 0xb410ff61#32, 0xf20015ad#32] }

/-- After INIT; SRCERR. -/
def sFault : State := { State.reset with PHASE := .fault, ERR := 7, ERRHDR := 0x9000#16 }

/-- In phase ABSORBING with n bytes counted, BUF all 0x61. -/
def sLen (n : Nat) : State :=
  { State.reset with PHASE := .absorbing, LENB := BitVec.ofNat 61 n, BUF := Vector.replicate 64 0x61#8 }

/-- n bytes 0x61. -/
def as (n : Nat) : List Byte := List.replicate n 0x61#8

theorem as_length (n : Nat) : (as n).length = n := List.length_replicate

/-! ### WellFormed: an ill-formed term for each check -/

theorem test_wf_write : (Instr.write (as 256)).wf = false := by simp [Instr.wf, as_length, Config.payloadMax]
theorem test_wf_absorb : (Instr.absorb (as 256)).wf = false := by simp [Instr.wf, as_length, Config.payloadMax]
theorem test_wf_accepts :
    ((Instr.write (as 255)).wf && (Instr.absorb (as 0)).wf && (Instr.rdw 255#8).wf && Instr.init.wf) = true := by
  simp [Instr.wf, as_length, Config.payloadMax]

/-! ### Decode: words written out from 30_encoding.md R71, R73, R75 -/

theorem test_decode_init : decodeTableWord 16 0b0001000000000000 = some .init := by decide
theorem test_decode_write :
    decodeTableWord 40 0b0110001101100010011000010010000000000011 = some (.write [0x61#8, 0x62#8, 0x63#8]) := by decide
theorem test_decode_absorb : decodeTableWord 24 0b100000000011000000000001 = some (.absorb [0x80#8]) := by decide
theorem test_decode_finalize : decodeTableWord 16 0b0100000000000000 = some .finalize := by decide
theorem test_decode_reset : decodeTableWord 16 0b0101000000000000 = some .reset := by decide
theorem test_decode_rdw : decodeTableWord 16 0b0110000000000101 = some (.rdw 5#8) := by decide
theorem test_decode_rdb : decodeTableWord 16 0b0111000000010010 = some (.rdb 18#8) := by decide
theorem test_decode_rdstat : decodeTableWord 16 0b1000000000000000 = some .rdstat := by decide
theorem test_decode_srcerr : decodeTableWord 16 0b1001000000000000 = some .srcerr := by decide

/-- R75: the byte string 20 03 61 62 63. -/
theorem test_encode_write : encode (.write [0x61#8, 0x62#8, 0x63#8]) = [0x20#8, 0x03#8, 0x61#8, 0x62#8, 0x63#8] := by
  decide

/-- Section 6: reserved OPC, nonzero ZERO, ARG on a command without operand. -/
theorem test_decode_illegal :
    decodeTableWord 16 0x0000 = none ∧ decodeTableWord 16 0xA000 = none ∧ decodeTableWord 16 0xFFFF = none ∧
    decodeTableWord 16 0x1001 = none ∧ decodeTableWord 16 0x1100 = none ∧ decodeTableWord 16 0x4001 = none ∧
    decodeTableWord 16 0x5080 = none ∧ decodeTableWord 16 0x8001 = none ∧ decodeTableWord 16 0x9001 = none := by decide

/-- Section 6: 0x2103 owns 3 payload bytes, 0x3041 owns 65, 0xF0FF none. -/
theorem test_plen : plen 0x2103#16 = 3 ∧ plen 0x3041#16 = 65 ∧ plen 0xF0FF#16 = 0 := by decide

/-- R81: no header has the pattern of two rows. -/
theorem test_rows_disjoint :
    opcodeRows.Pairwise (fun r q => r.pattern &&& q.mask ≠ q.pattern ∧ q.pattern &&& r.mask ≠ r.pattern) := by decide

/-! ### Primitives and block processing: sections 2 and 3 -/

theorem test_functions :
    ssig0 0x12345678#32 = 0xe7fce6ee#32 ∧ ssig1 0x12345678#32 = 0xa1f78649#32 ∧
    bsig0 0x12345678#32 = 0x66146474#32 ∧ bsig1 0x12345678#32 = 0x3561abda#32 ∧
    ch 0x510e527f#32 0x9b05688c#32 0x1f83d9ab#32 = 0x1f85c98c#32 ∧
    maj 0x6a09e667#32 0xbb67ae85#32 0x3c6ef372#32 = 0x3a6fe667#32 := by decide

/-- The block of "abc": W[16], W[17], W[19], W[33], W[63]. -/
theorem test_schedule_abc :
    let W := (schedule { sAbc with BUF := padBlockOne sAbc }).W
    W[0] = 0x61626380#32 ∧ W[15] = 0x00000018#32 ∧ W[16] = 0x61626380#32 ∧ W[17] = 0x000f0000#32 ∧
    W[19] = 0x600003c6#32 ∧ W[33] = 0x3b68ba73#32 ∧ W[63] = 0x12b1edeb#32 := by decide +kernel

/-- The example of R156: round 0 of the block of "abc". -/
theorem test_round_abc :
    roundRegs K[0] 0x61626380#32 (loadRegs IV) =
      ⟨0x5d6aebcd#32, 0x6a09e667#32, 0xbb67ae85#32, 0x3c6ef372#32,
       0xfa2a4622#32, 0x510e527f#32, 0x9b05688c#32, 0x1f83d9ab#32⟩ := by decide

/-- K1. -/
theorem test_digest_empty :
    (digestOf []).toList = [0xe3b0c442#32, 0x98fc1c14#32, 0x9afbf4c8#32, 0x996fb924#32,
      0x27ae41e4#32, 0x649b934c#32, 0xa495991b#32, 0x7852b855#32] := by decide +kernel

/-! ### Commands: one step each -/

/-- The example of R101: STATUS 0x40000054 is cleared. -/
theorem test_init : holds .init { sFault with ERR := 5, ERRHDR := 0x4000#16 } (fun t =>
    answers 0x00#8 0 t && decide (statusWord t = 0) && decide (t.H = IV)) = true := by decide

/-- F26. -/
theorem test_reset : holds .reset sFault (fun t => answers 0x00#8 0 t && decide (statusWord t = 0)) = true := by decide

/-- The example of R111, and G2's boundary: the 64th byte compresses once. -/
theorem test_write_abc : holds (.write [0x61#8, 0x62#8, 0x63#8]) State.reset (fun t =>
    answers 0x00#8 0 t && decide (t.LENB = 3) && decide (t.BUF[0] = 0x61#8 ∧ t.BUF[1] = 0x62#8 ∧ t.BUF[2] = 0x63#8) &&
      decide (t.H = IV) && decide (statusWord t = 0x00000301#32)) = true := by decide
theorem test_write_boundary : holds (.write (as 1)) (sLen 63) (fun t =>
    decide (t.LENB = 64) && decide (t.H[0] = 0xdf5bb81c#32 ∧ t.H[7] = 0x00635e66#32)) = true := by decide +kernel

/-- G1 and F10. -/
theorem test_absorb : holds (.absorb (as 64)) State.reset (fun t =>
    answers 0x00#8 0 t && decide (t.LENB = 64) && decide (t.H[0] = 0xdf5bb81c#32 ∧ t.H[7] = 0x00635e66#32)) = true := by
  decide +kernel
theorem test_absorb_align : holds (.absorb (as 64)) (sLen 1) (fun t =>
    answers 0x04#8 0 t && decide (statusWord t = 0x30400144#32)) = true := by decide

/-- K2, and the two-block corner L = 56 of section 4. -/
theorem test_finalize_abc : holds .finalize sAbc (fun t =>
    answers 0x00#8 0 t && decide (t.H = sFin.H) && decide (statusWord t = 0x00000303#32)) = true := by decide +kernel
theorem test_finalize_56 : holds .finalize (sLen 56) (fun t =>
    decide (t.H[0] = 0xb35439a4#32) && decide (t.BUF[63] = 0xc0#8 ∧ t.BUF[62] = 0x01#8 ∧ t.BUF[0] = 0x00#8)) = true := by
  decide +kernel

/-- The examples of R172; F14's shape for RDW: 8 is out of range. -/
theorem test_rdw : holds (.rdw 7#8) sFin (answers 0x00#8 0xf20015ad#32) = true := by decide
theorem test_rdw_index : holds (.rdw 8#8) sFin (fun t =>
    answers 0x02#8 0 t && decide (t.ERRHDR = 0x6008#16)) = true := by decide

/-- The examples of R173: RDB 3 and RDB 31. -/
theorem test_rdb : (holds (.rdb 3#8) sFin (answers 0x00#8 0xbf#32) && holds (.rdb 31#8) sFin (answers 0x00#8 0xad#32)) =
    true := by decide
/-- F12. -/
theorem test_rdb_early : holds (.rdb 0#8) sAbc (fun t =>
    answers 0x06#8 0 t && decide (statusWord t = 0x70000364#32)) = true := by decide

/-- F25 and the example of R174. -/
theorem test_rdstat : (holds .rdstat sFault (answers 0x00#8 0x90000074#32) &&
    holds .rdstat sAbc (answers 0x00#8 0x00000301#32)) = true := by decide

/-- F15, and F20's shape: the first cause is kept. -/
theorem test_srcerr : holds .srcerr State.reset (fun t =>
    answers 0x07#8 0 t && decide (statusWord t = 0x90000074#32)) = true := by decide
theorem test_srcerr_faulted : holds .srcerr { sFault with ERR := 5, ERRHDR := 0x4000#16 } (fun t =>
    answers 0x09#8 0 t && decide (statusWord t = 0x40000054#32)) = true := by decide

/-! ### Steps -/

/-- F4: INIT with ZERO = 1 does not initialise but faults. -/
theorem test_step_illegal : ((after (step (offerCommand 0x1100#16 [] sAbc))).map fun t =>
    answers 0x01#8 0 t && decide (t.LENB = 3) && decide (t.ERRHDR = 0x1100#16)) = some true := by decide

/-- R80: the response of RDW 0 of P2's digest as five bytes, and that of a fault (F4). -/
theorem test_responseBytes :
    responseBytes ⟨0x00#8, 0xba7816bf#32⟩ = [0x00#8, 0xba#8, 0x78#8, 0x16#8, 0xbf#8] ∧
    responseBytes ⟨0x01#8, 0#32⟩ = [0x01#8, 0x00#8, 0x00#8, 0x00#8, 0x00#8] := by decide

/-- R85: a table word placed for the next step is what it runs. -/
theorem test_withFetchWord :
    ((after (step (State.reset.withFetchWord 16 0x9000))).map fun t => statusWord t) = some 0x90000074#32 := by decide

/-! ### Witnesses: states and operands that meet the hypotheses of each statement -/

/-- The hypotheses of the statements about one whole command on the channels. -/
def ready (i : Instr) (s : State) : Bool :=
  i.wf && s.rstN && (s.rspOut.isNone || s.rspReady) && s.cur.isNone && decide (s.cmdIn = headerOf i :: []) &&
    decide (s.plIn = payloadOf i ++ [])

/-- Two states that differ in a..h, W, T and in BUF[3], which is not waiting. -/
def sAbcHidden : State :=
  { sAbc with v := ⟨1, 2, 3, 4, 5, 6, 7, 8⟩, W := Vector.replicate 64 7, T := 64,
              BUF := payloadBlock [0x61#8, 0x62#8, 0x63#8, 0xff#8] }

theorem witness_PrimitivesMoveBits :
    (1 ≤ 1 ∧ 31 ≤ 31 ∧ 31 < 32) ∧ rotr 0x12345678#32 1 = 0x091a2b3c#32 ∧ rotr 0x12345678#32 31 = 0x2468acf0#32 := by decide

theorem witness_ResetValues : ∃ r i t, r = hardwareReset sFault ∧ i = Instr.reset ∧ exec i sFault = .next t :=
  ⟨_, _, _, rfl, rfl, rfl⟩

theorem witness_sFin_Inv : sFin.Inv := by
  constructor <;> decide
theorem witness_StepKeepsInvariant :
    (fed (.rdw 0#8) sFin).Inv ∧ ((after (step (fed (.rdw 0#8) sFin))).map (answers 0x00#8 0xba7816bf#32)) = some true := by
  refine ⟨?_, by decide⟩
  constructor <;> decide

theorem witness_HiddenStateUnobservable : sAbc.SameVisible sAbcHidden ∧ sAbc ≠ sAbcHidden :=
  ⟨⟨rfl, rfl, rfl, rfl, rfl, by decide, rfl, rfl, rfl, rfl, rfl, rfl⟩, by decide⟩

/-- At the largest LENB: one byte is accepted at 2^61 - 2 and refused at 2^61 - 1. -/
theorem witness_LengthCounter :
    (holds .init sAbc (fun _ => true) && holds (.write (as 1)) (sLen (2 ^ 61 - 2)) (answers statusOK 0) &&
      holds (.write (as 1)) (sLen (2 ^ 61 - 1)) (answers 0x08#8 0) && holds .rdstat sAbc (fun _ => true)) = true := by decide

/-- One case for each clause; the WRITE is that of the 64th byte of a block, which changes H. -/
theorem witness_HashStateWriters :
    (holds .init sFin (fun t => decide (t.H ≠ sFin.H)) &&
      holds (.write (as 1)) (sLen 63) (fun t => answers statusOK 0 t && decide (t.H ≠ IV)) &&
      holds .finalize sAbc (answers statusOK 0) && holds .finalize (sLen 56) (answers statusOK 0) &&
      holds .finalize sFin (answers 0x05#8 0) && holds (.rdw 0#8) sFin (answers statusOK 0xba7816bf#32)) =
      true := by decide +kernel

theorem witness_LevelOutputsFollowPhase :
    (holds .init sFault (fun t => !oFault t) && holds .finalize (sLen 0) (answers statusOK 0)) = true := by decide

theorem witness_DecodeEncodeRoundTrip : (Instr.write (as 255)).wf = true ∧ (Instr.rdw 255#8).wf = true := by
  simp [Instr.wf, as_length, Config.payloadMax]

theorem witness_EncodeDecodeRoundTrip : decode [0x20#8, 0x01#8, 0x61#8, 0x40#8] = .ok (.write [0x61#8], [0x40#8]) := rfl

theorem witness_DecoderReadsOpcodeTable :
    decodeCommand 0x60ff#16 [] = .ok (.rdw 255#8) ∧ decodeCommand 0x1001#16 [] = .error .E_ILLEGAL ∧
    0x60ff#16 &&& 0xFF00#16 = 0x6000#16 := ⟨rfl, rfl, rfl⟩

/-- The boundaries of each class, and that no header is in two classes. -/
theorem witness_HeaderClassification :
    (legalHeader 0x2000 ∧ legalHeader 0x20ff ∧ legalHeader 0x3040 ∧ legalHeader 0x6007 ∧ legalHeader 0x701f) ∧
    (indexHeader 0x6008 ∧ indexHeader 0x60ff ∧ indexHeader 0x7020 ∧ indexHeader 0x70ff) ∧
    (lengthHeader 0x3000 ∧ lengthHeader 0x303f ∧ lengthHeader 0x3041 ∧ lengthHeader 0x30ff) ∧
    (¬legalHeader 0x2100 ∧ ¬indexHeader 0x2100 ∧ ¬lengthHeader 0x2100) ∧
    ∀ n, (legalHeader n → ¬indexHeader n ∧ ¬lengthHeader n) ∧ (indexHeader n → ¬lengthHeader n) := by
  refine ⟨by decide, by decide, by decide, by decide, fun n => ?_⟩
  constructor <;> intro h <;> simp only [legalHeader, indexHeader, lengthHeader] at h ⊢ <;> omega

theorem witness_CommandLength :
    (Instr.write (as 255)).wf = true ∧ Instr.init.wf = true ∧ (encode .init).length = 2 ∧
      (encode (.write (as 255))).length = 257 := by
  simp [Instr.wf, encode, hdrBytes, payloadOf, as_length, Config.payloadMax]

theorem witness_StepRunsDecodedCommand :
    ready (.write [0x61#8]) (fed (.write [0x61#8]) sAbc) = true ∧ ready .init (fed .init sFault) = true ∧
    (offerCommand 0x2103#16 [1, 2, 3] sAbc).cmdIn = 0x2103#16 :: [] ∧ plen 0x2103#16 = 3 ∧
    decodeCommand 0x2103#16 [1, 2, 3] = .error .E_ILLEGAL := ⟨by decide, by decide, rfl, by decide, rfl⟩

theorem witness_EngineWaitsForHost :
    let held : State := { sAbc with rspOut := some ⟨0, 0⟩, rspReady := false, cmdIn := [0x4000#16] }
    let taken : State := { sAbc with rspOut := some ⟨0, 0⟩ }
    (held.rstN = true ∧ held.rspOut ≠ none ∧ held.rspReady = false) ∧
    (taken.rstN = true ∧ taken.rspOut ≠ none ∧ taken.rspReady = true ∧ taken.cur = none ∧ taken.cmdIn = []) ∧
    sAbc.rstN = true ∧ sAbc.rspOut = none ∧ sAbc.cur = none ∧ sAbc.cmdIn = [] := by decide

/-- cmd_ready before, and pl_ready then rsp_valid after a header whose payload comes in two steps; under reset, none. -/
theorem witness_PortHandshake :
    let ports (s : State) : List Bool := [cmdReady s, plReady s, rspValid s]
    let s : State := { sAbc with cmdIn := [0x2002#16], plIn := [0x61#8] }
    let w : State := { sAbc with cur := some ⟨0x2002#16, [0x61#8]⟩, plIn := [0x62#8] }
    ports s = [true, false, false] ∧ ((after (step s)).map ports) = some [false, true, false] ∧
    ports w = [false, true, false] ∧ ((after (step w)).map ports) = some [false, false, true] ∧
    ports { w with rstN := false } = [false, false, false] := by decide

theorem witness_PortHandshake_Inv :
    State.Inv { sAbc with cur := some ⟨0x2002#16, [0x61#8]⟩, plIn := [0x62#8] } := by
  constructor <;> decide

theorem witness_WithheldPayloadStalls :
    let s : State := { sAbc with cmdIn := [0x2002#16], plIn := [0x61#8] }
    s.rstN = true ∧ s.rspOut = none ∧ s.cur = none ∧ s.cmdIn = 0x2002#16 :: [] ∧ s.plIn = [0x61#8] ∧
    [0x61#8].length < plen 0x2002#16 ∧ [0x61#8].length + [0x62#8].length = plen 0x2002#16 := by decide

theorem witness_FramingIsKept :
    ready (.absorb [0x61#8]) (fed (.absorb [0x61#8]) sFault) = true ∧ plen (headerOf (.absorb [0x61#8])) = 1 := by decide

theorem witness_InitAndResetInitialise : Instr.init = .init ∨ Instr.init = .reset := .inl rfl

theorem witness_SrcerrAlwaysFaults : sFin.PHASE ≠ .fault ∧ sFault.PHASE = .fault := by decide

/-- LENB at its largest after the command; a WRITE up to but not across the block boundary, with the last byte it stores. -/
theorem witness_WriteAcceptsAndFrame :
    (Instr.write (as 60)).wf = true ∧ sAbc.PHASE ≠ .fault ∧ sAbc.PHASE ≠ .finalized ∧
    (sLen (2 ^ 61 - 2)).LENB.toNat + (as 1).length = 2 ^ 61 - 1 ∧
    sAbc.LENB.toNat % 64 + (as 60).length = 63 ∧ sAbc.LENB.toNat % 64 ≤ 62 ∧
    62 < sAbc.LENB.toNat % 64 + (as 60).length ∧ ∀ k < (as 60).length, (sAbc.LENB.toNat + k) % 64 ≠ 63 := by decide

theorem witness_WriteOneByte :
    ∀ n ∈ [62, 63, 2 ^ 61 - 2], (sLen n).PHASE ≠ .fault ∧ (sLen n).PHASE ≠ .finalized ∧ (sLen n).LENB.toNat < 2 ^ 61 - 1 := by
  decide

theorem witness_WriteSplits :
    (sLen (2 ^ 61 - 3)).PHASE ≠ .fault ∧ (sLen (2 ^ 61 - 3)).PHASE ≠ .finalized ∧
    (sLen (2 ^ 61 - 3)).LENB.toNat + (as 1).length + (as 1).length = 2 ^ 61 - 1 := by decide

theorem witness_ZeroLengthWrite :
    State.reset.PHASE = .init ∧ sAbc.PHASE = .absorbing ∧ sFin.PHASE = .finalized ∧ sFault.PHASE = .fault := by decide

/-- The largest aligned LENB from which a block fits. -/
theorem witness_AbsorbAcceptsAndFrame :
    (as 64).length = 64 ∧ (sLen (2 ^ 61 - 128)).PHASE ≠ .fault ∧ (sLen (2 ^ 61 - 128)).PHASE ≠ .finalized ∧
    (sLen (2 ^ 61 - 128)).LENB.toNat % 64 = 0 ∧ (sLen (2 ^ 61 - 128)).LENB.toNat + 64 ≤ 2 ^ 61 - 1 := by decide

theorem witness_AbsorbEqualsWrite :
    (as 64).length = 64 ∧ State.reset.PHASE ≠ .fault ∧ State.reset.PHASE ≠ .finalized ∧
    State.reset.LENB.toNat % 64 = 0 ∧ State.reset.LENB.toNat + 64 ≤ 2 ^ 61 - 1 := by decide

theorem witness_sAbc_Absorbed : sAbc.Absorbed [0x61#8, 0x62#8, 0x63#8] :=
  ⟨rfl, (hashBlocks_zero _).symm, by decide⟩
theorem witness_IngestExtendsMessage :
    sAbc.Absorbed [0x61#8, 0x62#8, 0x63#8] ∧ isIngest (.write [0x64#8]) = true ∧
    ∃ t, exec (.write [0x64#8]) sAbc = .next t ∧ answers statusOK 0 t = true :=
  ⟨witness_sAbc_Absorbed, rfl, of_holds (by decide)⟩

theorem witness_SegmentationLaw :
    messageOf [.write [0x61#8, 0x62#8]] = messageOf [.write [0x61#8], .write [], .write [0x62#8]] ∧
    ([Instr.write [0x61#8, 0x62#8]] = [] ↔ [Instr.write [0x61#8], .write [], .write [0x62#8]] = []) ∧
    ((runAll [.write [0x61#8, 0x62#8]] (initialise State.reset)).map fun r => allOK r.2) = some true ∧
    ((runAll [.write [0x61#8], .write [], .write [0x62#8]] (initialise sFault)).map fun r => allOK r.2) = some true := by
  decide

theorem witness_FinalizeCompressesPaddedBlocks :
    ∀ n ∈ [0, 55, 56, 63], (sLen n).PHASE ≠ .fault ∧ (sLen n).PHASE ≠ .finalized ∧
      ((sLen n).LENB.toNat % 64 ≤ 55 ∨ 56 ≤ (sLen n).LENB.toNat % 64) := by decide

theorem witness_FinalizeGivesDigest :
    sAbc.Absorbed [0x61#8, 0x62#8, 0x63#8] ∧ sAbc.PHASE ≠ .fault ∧ sAbc.PHASE ≠ .finalized :=
  ⟨witness_sAbc_Absorbed, by decide, by decide⟩

/-- The corners of section 4: z = 55, 0, 63, 56. -/
theorem witness_PaddingLength :
    54 < zeroCount 0 ∧ zeroCount 0 = 55 ∧ zeroCount 55 = 0 ∧ zeroCount 56 = 63 ∧ zeroCount 63 = 56 := by decide

theorem witness_SigmaFunctionsBitwise : 0 < 32 ∧ 28 + 3 < 32 ∧ ¬ 29 + 3 < 32 ∧ 31 < 32 := by decide

theorem witness_RoundMicroOperations : ∃ (t1 t2 : Word), t1 = sAbc.v.h + bsig1 sAbc.v.e ∧ t2 = bsig0 sAbc.v.a := ⟨_, _, rfl, rfl⟩

theorem witness_RoundsKeepHashState : (0 ≤ 64) ∧ (64 ≤ 64) := by decide

theorem witness_CompressIsItsMicroOperations : 16 ≤ (16 : Fin 64).val ∧ 16 ≤ (63 : Fin 64).val := by decide

theorem witness_RdwReturnsHashWord :
    sFault.PHASE = .fault ∧ (sFin.PHASE ≠ .fault ∧ 7 < (8#8).toNat) ∧
    (sAbc.PHASE ≠ .fault ∧ sAbc.PHASE ≠ .finalized ∧ (7#8).toNat ≤ 7) ∧ (7#8).toNat ≤ 7 ∧ sFin.PHASE = .finalized := by decide

theorem witness_RdbReturnsDigestByte :
    sFault.PHASE = .fault ∧ (sFin.PHASE ≠ .fault ∧ 31 < (32#8).toNat) ∧
    (sAbc.PHASE ≠ .fault ∧ sAbc.PHASE ≠ .finalized ∧ (31#8).toNat ≤ 31) ∧ (31#8).toNat ≤ 31 ∧ sFin.PHASE = .finalized := by
  decide

theorem witness_WordViewIsFourBytes : sFin.PHASE = .finalized := rfl

theorem witness_ReadsArePure :
    (holds (.rdw 7#8) sFin (answers statusOK 0xf20015ad#32) && holds (.rdb 0#8) sFin (answers statusOK 0xba#32) &&
      holds .rdstat sFin (answers statusOK 0x00000303#32)) = true := by decide

theorem witness_FaultedEngineRefuses :
    sFault.PHASE = .fault ∧ Instr.finalize ≠ .init ∧ Instr.finalize ≠ .reset ∧ Instr.finalize ≠ .rdstat := by decide

theorem witness_FaultEntryIsPrecise :
    sAbc.PHASE ≠ .fault ∧ ∃ t, exec .srcerr sAbc = .next t ∧ decide (t.PHASE = .fault) = true :=
  ⟨by decide, of_holds (by decide)⟩

/-- Each cause at the boundary: LENB one past, a length one off, BUFCNT 63. -/
theorem witness_IngestFaultPriority :
    sFin.PHASE ≠ .fault ∧ sFin.PHASE = .finalized ∧ (sLen 63).PHASE ≠ .fault ∧ (sLen 63).PHASE ≠ .finalized ∧
    2 ^ 61 - 1 < (sLen (2 ^ 61 - 1)).LENB.toNat + (as 1).length ∧ (as 63).length ≠ 64 ∧ (as 65).length ≠ 64 ∧
    (as 64).length = 64 ∧ (sLen 63).LENB.toNat % 64 ≠ 0 ∧ (sLen (2 ^ 61 - 64)).LENB.toNat % 64 = 0 ∧
    2 ^ 61 - 1 < (sLen (2 ^ 61 - 64)).LENB.toNat + 64 := by decide

theorem witness_StepRefinesStepFunction :
    ready (.rdb 32#8) (fed (.rdb 32#8) sFin) = true ∧ plen (headerOf (.rdb 32#8)) = 0 := by decide

theorem witness_FaultIsSticky :
    sFault.PHASE = .fault ∧
    ((after (step (fed .init sFault))).map State.PHASE) = some .init ∧
    ((after (step (fed .finalize sFault))).map State.PHASE) = some .fault := by decide

theorem witness_NoDigestOutsideFinalized :
    sAbc.PHASE ≠ .finalized ∧ Instr.rdw 0#8 ≠ .rdstat ∧ holds (.rdw 0#8) sAbc (answers 0x06#8 0) = true := by decide

theorem witness_PhaseTransitionTable :
    (Instr.rdb 32#8).wf = true ∧ sFin.Inv ∧ ∃ t, exec (.rdb 32#8) sFin = .next t ∧ decide (t.PHASE = .fault) = true :=
  ⟨rfl, witness_sFin_Inv, of_holds (by decide)⟩

/-- Reset asserted with a command in progress and a response pending on the host's side. -/
theorem witness_HardwareResetFromAnyState :
    let s : State := { sFault with rstN := false, cur := some ⟨0x2002#16, [0x61#8]⟩ }
    s.rstN = false ∧ ((after (step s)).map State.PHASE) = some .init := by decide

theorem witness_ThreeResetsAgree : sFault.cur = none ∧ ∃ t, exec .reset sFault = .next t := ⟨rfl, _, rfl⟩

theorem witness_HashGivesDigestWords : ([0x61#8, 0x62#8, 0x63#8] : List Byte).length ≤ 2 ^ 61 - 1 := by decide

end Sys2Proof.Tests
end

section
/-! PROOF. The primitives of 00_scope.md R14: what each does to bits or to values, and O1 from these. -/

namespace Sys2Proof.Machine

/-- R14 rotr: below bit 32 - n the right shift supplies bit i, above it the left shift does. -/
theorem getLsbD_rotr (x : Word) {n i : Nat} (hn : n < 32) (hi : i < 32) :
    (rotr x n).getLsbD i = x.getLsbD ((i + n) % 32) := by
  rw [rotr, BitVec.getLsbD_or, BitVec.getLsbD_ushiftRight, BitVec.getLsbD_shiftLeft]
  by_cases hwrap : i < 32 - n
  · have hpos : (i + n) % 32 = n + i := by omega
    simp [hwrap, hpos]
  · have hpos : (i + n) % 32 = i - (32 - n) := by omega
    have hout : x.getLsbD (n + i) = false := BitVec.getLsbD_of_ge x (n + i) (by omega)
    simp [hwrap, hpos, hout, hi]

theorem toNat_shr (x : Word) (n : Nat) : (shr x n).toNat = x.toNat / 2 ^ n := by
  rw [shr, BitVec.toNat_ushiftRight, Nat.shiftRight_eq_div_pow]

theorem toNat_append_byte {w : Nat} (x : BitVec w) (b : Byte) : (x ++ b).toNat = x.toNat * 2 ^ 8 + b.toNat := by
  rw [BitVec.toNat_append, ← Nat.shiftLeft_add_eq_or_of_lt b.isLt, Nat.shiftLeft_eq]

theorem toNat_extractLsb'_byte {w : Nat} (x : BitVec w) (lo : Nat) :
    (x.extractLsb' lo 8).toNat = x.toNat / 2 ^ lo % 256 := by
  rw [BitVec.extractLsb'_toNat, Nat.shiftRight_eq_div_pow]

theorem toNat_be32 (b0 b1 b2 b3 : Byte) :
    (be32 b0 b1 b2 b3).toNat = b0.toNat * 2 ^ 24 + b1.toNat * 2 ^ 16 + b2.toNat * 2 ^ 8 + b3.toNat := by
  rw [be32, toNat_append_byte, toNat_append_byte, toNat_append_byte]
  omega

theorem toNat_byteOf (w : Word) (k : Nat) : (byteOf w k).toNat = w.toNat / 2 ^ (24 - 8 * k) % 256 :=
  toNat_extractLsb'_byte w _

/-- R14, R52: `be32` reassembles what `byte` takes apart. -/
theorem be32_byteOf (w : Word) : be32 (byteOf w 0) (byteOf w 1) (byteOf w 2) (byteOf w 3) = w := by
  apply BitVec.eq_of_toNat_eq
  rw [toNat_be32, toNat_byteOf, toNat_byteOf, toNat_byteOf, toNat_byteOf]
  have hw : w.toNat < 2 ^ 32 := w.isLt
  omega

theorem toNat_getElem_be64 (x : BitVec 64) (k : Nat) (hk : k < 8) :
    (be64 x)[k].toNat = x.toNat / 2 ^ (56 - 8 * k) % 256 := by
  rw [be64, Vector.getElem_ofFn, toNat_extractLsb'_byte]

/-- Settles O1: each clause is the rule of one primitive. -/
theorem primitivesMoveBits : Obligations.PrimitivesMoveBits := by
  unfold Obligations.PrimitivesMoveBits
  refine ⟨?sumNotAndXor, ?rotrShr, toNat_be32, fun w k => toNat_byteOf w k, be32_byteOf,
    fun x k => toNat_getElem_be64 x k k.isLt⟩
  case sumNotAndXor =>
    exact fun x y => ⟨BitVec.toNat_add x y, BitVec.toNat_not, fun _ => ⟨BitVec.getLsbD_and, BitVec.getLsbD_xor⟩⟩
  case rotrShr =>
    exact fun x n i _ hn hi => ⟨getLsbD_rotr x (by omega) hi, toNat_shr x n⟩

end Sys2Proof.Machine
end

section
/-! PROOF. The constants K and IV (10_state.md R32, R34) against the roots of the primes: the first 64 primes are counted
with a primality test by small factors, and each root is its integer part and the tabled fraction. -/

namespace Sys2Proof.Machine

/-! ### The first 64 primes -/

/-- The primes below 312, in rows of eight as K. -/
def firstPrimes : Vector Nat 64 := Vector.mk (
  #[2, 3, 5, 7, 11, 13, 17, 19] ++ #[23, 29, 31, 37, 41, 43, 47, 53] ++
  #[59, 61, 67, 71, 73, 79, 83, 89] ++ #[97, 101, 103, 107, 109, 113, 127, 131] ++
  #[137, 139, 149, 151, 157, 163, 167, 173] ++ #[179, 181, 191, 193, 197, 199, 211, 223] ++
  #[227, 229, 233, 239, 241, 251, 257, 263] ++ #[269, 271, 277, 281, 283, 293, 307, 311]) rfl

/-- No prime below 19 but n itself divides n: the primality test for n < 19 * 19. -/
abbrev NoSmallFactor (n : Nat) : Prop := 2 ≤ n ∧ ∀ q ∈ [2, 3, 5, 7, 11, 13, 17], q ∣ n → q = n

theorem mem_of_prime_of_lt_19 : ∀ q < 19, q.Prime → q ∈ [2, 3, 5, 7, 11, 13, 17] := by decide

theorem prime_iff_noSmallFactor {n : Nat} (hn : n < 19 * 19) : n.Prime ↔ NoSmallFactor n := by
  constructor
  · intro hp
    refine ⟨hp.two_le, fun q hq hdvd => (hp.eq_one_or_self_of_dvd q hdvd).resolve_left ?_⟩
    rintro rfl
    simp at hq
  · rintro ⟨h2, hfactor⟩
    by_contra hp
    have hsq : n.minFac * n.minFac ≤ n := by simpa [sq] using Nat.minFac_sq_le_self (by omega) hp
    have hlt : n.minFac < 19 := by by_contra hge; nlinarith
    have hprime : n.minFac.Prime := Nat.minFac_prime (by omega)
    have hself := hfactor _ (mem_of_prime_of_lt_19 _ hlt hprime) n.minFac_dvd
    exact hp (hself ▸ hprime)

/-- Each entry of the table passes the test, and the entries before it are all the numbers below it that do. -/
theorem firstPrimes_noSmallFactor : ∀ t : Fin 64, firstPrimes[t.val] < 19 * 19 ∧ NoSmallFactor firstPrimes[t.val] ∧
    Nat.count NoSmallFactor firstPrimes[t.val] = t.val := by
  decide +kernel

theorem count_prime_eq_count_noSmallFactor {n : Nat} (hn : n < 19 * 19) :
    Nat.count Nat.Prime n = Nat.count NoSmallFactor n :=
  le_antisymm (Nat.count_mono_left fun _ hk => (prime_iff_noSmallFactor (by omega)).1)
    (Nat.count_mono_left fun _ hk => (prime_iff_noSmallFactor (by omega)).2)

theorem nth_prime_eq_firstPrimes (t : Nat) (ht : t < 64) : Nat.nth Nat.Prime t = firstPrimes[t] := by
  obtain ⟨hlt, hprime, hcount⟩ := firstPrimes_noSmallFactor ⟨t, ht⟩
  have hidx : Nat.count Nat.Prime firstPrimes[t] = t := (count_prime_eq_count_noSmallFactor hlt).trans hcount
  calc Nat.nth Nat.Prime t = Nat.nth Nat.Prime (Nat.count Nat.Prime firstPrimes[t]) := by rw [hidx]
    _ = firstPrimes[t] := Nat.nth_count ((prime_iff_noSmallFactor hlt).2 hprime)

/-! ### The tables against the roots -/

/-- A number with integer part q and fraction bits w, times 2^32. -/
def fixedPoint (q : Nat) (w : Word) : Nat := q * 2 ^ 32 + w.toNat

theorem fixedPoint_mod (q : Nat) (w : Word) : w.toNat = fixedPoint q w % 2 ^ 32 := by
  have hw := w.isLt
  rw [fixedPoint]
  omega

/-- Every cube root of the table is below 7, so its integer part and K[t] are compared with the prime by cubing. -/
theorem K_bounds_cubeRoot : ∀ t : Fin 64, ∃ q : Fin 7,
    fixedPoint q.val K[t.val] ^ 3 ≤ firstPrimes[t.val] * 2 ^ 96 ∧
    firstPrimes[t.val] * 2 ^ 96 < (fixedPoint q.val K[t.val] + 1) ^ 3 := by
  decide

theorem IV_bounds_squareRoot : ∀ i : Fin 8, ∃ q : Fin 5,
    fixedPoint q.val IV[i.val] ^ 2 ≤ firstPrimes[i.val] * 2 ^ 64 ∧
    firstPrimes[i.val] * 2 ^ 64 < (fixedPoint q.val IV[i.val] + 1) ^ 2 := by
  decide

/-- Settles O3: the root is the integer part that `K_bounds_cubeRoot` finds and the fraction K[t]. -/
theorem roundConstantsAreCubeRoots : Obligations.RoundConstantsAreCubeRoots := by
  unfold Obligations.RoundConstantsAreCubeRoots
  intro t
  obtain ⟨q, hle, hlt⟩ := K_bounds_cubeRoot t
  rw [nth_prime_eq_firstPrimes t t.isLt]
  exact ⟨fixedPoint q.val K[t.val], hle, hlt, fixedPoint_mod _ _⟩

/-- Settles O4, as O3 with square roots. -/
theorem initialValuesAreSquareRoots : Obligations.InitialValuesAreSquareRoots := by
  unfold Obligations.InitialValuesAreSquareRoots
  intro i
  obtain ⟨q, hle, hlt⟩ := IV_bounds_squareRoot i
  rw [nth_prime_eq_firstPrimes i (by omega)]
  exact ⟨fixedPoint q.val IV[i.val], hle, hlt, fixedPoint_mod _ _⟩

end Sys2Proof.Machine
end

section
/-! PROOF. Compression as a function (44_compression.md R160, 43_schedule.md R146): the scheduled W, read as a moving window
of sixteen words, gives `compress` the H that `compressFn` computes from the old H and BUF alone. -/

namespace Sys2Proof.Machine

/-! ### The scheduled W -/

/-- W after the sixteen loads (R143). -/
def loadedW (B : Vector Byte 64) (W : Vector Word 64) : Vector Word 64 :=
  (List.finRange 16).foldl (fun W t => W.set t.val
    (be32 B[4 * t.val] B[4 * t.val + 1] B[4 * t.val + 2] B[4 * t.val + 3])) W

theorem scheduleW_eq (B : Vector Byte 64) (W : Vector Word 64) :
    scheduleW B W = ((List.finRange 48).take 48).foldl (fun W t => expW ⟨t.val + 16, by omega⟩ W) (loadedW B W) := by
  rw [List.take_of_length_le (by simp), scheduleW, expIndices_eq, List.foldl_map, loadedW]

theorem loadedW_getElem (B : Vector Byte 64) (W : Vector Word 64) (t : Fin 16) :
    (loadedW B W)[t.val] = (blockWords B)[t.val] := by
  have hload := foldl_load_getElem { State.reset with BUF := B } W 16 (by omega) t t.isLt
  rw [List.take_of_length_le (by simp)] at hload
  rw [blockWords, Vector.getElem_ofFn]
  exact hload

/-- R143: the first sixteen words of W are those of the block. -/
theorem scheduleW_getElem_of_lt (B : Vector Byte 64) (W : Vector Word 64) (t : Fin 16) :
    (scheduleW B W)[t.val] = (blockWords B)[t.val] := by
  rw [scheduleW_eq, ← loadedW_getElem B W t]
  exact (foldl_exp_getElem (loadedW B W) 48 le_rfl).1 t

/-- R144: every later word follows the recurrence. -/
theorem scheduleW_getElem_add_16 (B : Vector Byte 64) (W : Vector Word 64) (t : Fin 48) :
    (scheduleW B W)[t.val + 16] = (scheduleW B W)[t.val] + ssig0 (scheduleW B W)[t.val + 1] + (scheduleW B W)[t.val + 9] +
      ssig1 (scheduleW B W)[t.val + 14] := by
  rw [scheduleW_eq]
  exact (foldl_exp_getElem (loadedW B W) 48 le_rfl).2 t t.isLt

/-! ### The window -/

/-- w is the window W[n..n+15] of the schedule, as far as the schedule goes. -/
def IsWindow (W : Vector Word 64) (n : Nat) (w : Vector Word 16) : Prop :=
  ∀ (i : Nat) (_ : i < 16) (_ : n + i < 64), w[i] = W[n + i]

theorem IsWindow.next {B : Vector Byte 64} {W : Vector Word 64} {n : Nat} {w : Vector Word 16}
    (h : IsWindow (scheduleW B W) n w) : IsWindow (scheduleW B W) (n + 1) (windowNext w) := by
  intro i hi hni
  rw [windowNext_getElem w ⟨i, hi⟩]
  by_cases hlast : i < 15
  · rw [dif_pos hlast, h (i + 1) (by omega) (by omega)]
    congr 1
    omega
  · obtain rfl : i = 15 := by omega
    rw [dif_neg hlast, h 0 (by omega) (by omega), h 1 (by omega) (by omega), h 9 (by omega) (by omega),
      h 14 (by omega) (by omega)]
    exact (scheduleW_getElem_add_16 B W ⟨n, by omega⟩).symm

/-- After n rounds the window has moved on by n and the working registers are those of n rounds over W. -/
theorem foldl_windowRound (B : Vector Byte 64) (W : Vector Word 64) (v : WorkRegs) (n : Nat) (hn : n ≤ 64) :
    let x := ((List.finRange 64).take n).foldl windowRound (v, blockWords B)
    x.1 = roundsRegs (scheduleW B W) ((List.finRange 64).take n) v ∧ IsWindow (scheduleW B W) n x.2 := by
  induction n with
  | zero =>
    refine ⟨rfl, fun i hi _ => ?_⟩
    simpa using (scheduleW_getElem_of_lt B W ⟨i, hi⟩).symm
  | succ n ih =>
    obtain ⟨hregs, hwin⟩ := ih (by omega)
    have hfirst := hwin 0 (by omega) (by omega)
    rw [take_succ_finRange (by omega), List.foldl_append, roundsRegs, List.foldl_append]
    refine ⟨?_, hwin.next⟩
    simp only [List.foldl_cons, List.foldl_nil, windowRound, hregs, hfirst]
    rfl

theorem roundsRegs_scheduleW (B : Vector Byte 64) (W : Vector Word 64) (v : WorkRegs) :
    roundsRegs (scheduleW B W) (List.finRange 64) v = ((List.finRange 64).foldl windowRound (v, blockWords B)).1 := by
  have h := (foldl_windowRound B W v 64 le_rfl).1
  rw [List.take_of_length_le (by simp)] at h
  exact h.symm

/-- R160: the H that `compress` leaves is a function of the old H and BUF. -/
@[simp] theorem compress_H (s : State) : (compress s).H = compressFn s.H s.BUF := by
  rw [compress_eq_steps, compressSteps_eq, compressFn, roundsRegs_scheduleW]

end Sys2Proof.Machine
end

section
/-! PROOF. Laws that several statements share: a case of `exec` is its outcome, BUF at a block boundary, H and the waiting
bytes as the fold of the byte string absorbed. -/

namespace Sys2Proof.Machine

/-! ### exec, the converse of its inversion -/

theorem Faults.exec_eq {i : Instr} {c : Cause} {s : State} (hf : s.PHASE ≠ .fault) (h : Faults s i c) :
    exec i s = .next (raiseFault c (headerOf i) s) := by
  cases h with
  | srcerr => simp [exec, execSrcerr, hf]
  | finalFinalize h => simp [exec, execFinalize, h]
  | finalWrite p h => simp [exec, execWrite, h]
  | overWrite p h ho => simp [exec, execWrite, hf, h, (lenOverflows_iff p.length s).2 ho]
  | length p h => simp [exec, execAbsorb, hf, h]
  | finalAbsorb p hl h => simp [exec, execAbsorb, hl, h]
  | align p hl h ha =>
    have hcnt : bufcnt s ≠ 0#6 := (bufcnt_eq_zero s).not.2 ha
    simp [exec, execAbsorb, hf, hl, h, hcnt]
  | overAbsorb p hl h ha ho => simp [exec, execAbsorb, hf, hl, h, (bufcnt_eq_zero s).2 ha, (lenOverflows_iff 64 s).2 ho]
  | indexWord x h => simp [exec, execRdw, hf, h]
  | earlyWord x h hz => simp [exec, execRdw, hf, hz, show ¬ 7 < x.toNat by omega]
  | indexByte x h => simp [exec, execRdb, hf, h]
  | earlyByte x h hz => simp [exec, execRdb, hf, hz, show ¬ 31 < x.toNat by omega]

theorem Accepts.exec_eq {i : Instr} {s u : State} (hf : s.PHASE ≠ .fault) (hz : s.PHASE ≠ .finalized) (h : Accepts s i u) :
    exec i s = .next (respond statusOK 0 u) := by
  cases h with
  | write p h => simp [exec, execWrite, hf, hz, (lenOverflows_iff p.length s).not.2 (by omega)]
  | absorb p hl ha h =>
    simp [exec, execAbsorb, hf, hz, hl, (bufcnt_eq_zero s).2 ha, (lenOverflows_iff 64 s).not.2 (by omega)]
  | finalize => simp [exec, execFinalize, hf, hz]

/-- `exec_next` the other way: the cases fix the outcome of exec. -/
theorem ExecCase.exec_eq {i : Instr} {s t : State} (h : ExecCase s i t) : exec i s = .next t := by
  cases h with
  | initialise i h => rcases h with rfl | rfl <;> rfl
  | status => rfl
  | faulted i hp h1 h2 h3 =>
    cases i with
    | init | reset | rdstat => contradiction
    | write | absorb | finalize | srcerr | rdw | rdb =>
      simp [exec, execWrite, execAbsorb, execFinalize, execSrcerr, execRdw, execRdb, hp]
  | faults i c hp h => exact h.exec_eq hp
  | word x hp h => simp [exec, execRdw, hp, show ¬ 7 < x.toNat by omega]
  | byte x hp h => simp [exec, execRdb, hp, show ¬ 31 < x.toNat by omega]
  | accepts i u h1 h2 h => exact h.exec_eq h1 h2

theorem step_of_wait {s u : State} (h : fetch s = .wait u) : step s = .next u := by
  simp only [step, h]

theorem step_of_decoded {s u : State} {hdr : Hdr} {p : List Byte} {i : Instr} (h : fetch s = .command hdr p u)
    (hd : decodeCommand hdr p = .ok i) : step s = exec i u := by
  simp only [step, h, hd]

theorem step_of_illegal {s u : State} {hdr : Hdr} {p : List Byte} {c : Cause} (h : fetch s = .command hdr p u)
    (hd : decodeCommand hdr p = .error c) : step s = .next (refuseHeader c hdr u) := by
  simp only [step, h, hd]

/-! ### Storing a byte -/

theorem storeByte_LENB_mod (b : Byte) (s : State) : (storeByte b s).LENB.toNat % 64 = (s.LENB.toNat + 1) % 64 := by
  have hadd : (storeByte b s).LENB.toNat = (s.LENB.toNat + 1) % 2 ^ 61 := BitVec.toNat_add s.LENB 1
  omega

theorem absorbByte_LENB_eq (b : Byte) (s : State) : (absorbByte b s).LENB = s.LENB + 1 := by
  rw [absorbByte_eq]; split <;> rfl

theorem absorbByte_LENB_mod (b : Byte) (s : State) : (absorbByte b s).LENB.toNat % 64 = (s.LENB.toNat + 1) % 64 := by
  rw [absorbByte_LENB_eq]
  exact storeByte_LENB_mod b s

/-- H after one byte: a compression of the filled BUF exactly at the block boundary (R113). -/
theorem absorbByte_H (b : Byte) (s : State) :
    (absorbByte b s).H = if (s.LENB.toNat + 1) % 64 = 0 then compressFn s.H (storeByte b s).BUF else s.H := by
  rw [absorbByte_eq]
  split
  · exact compress_H _
  · rfl

/-! ### The byte string that H and BUF come from -/

/-- s is what absorbing the byte string M block by block from the hash value H leaves in H, BUFCNT and BUF. With H = IV
and LENB the length of M, it is `State.Absorbed` (`absorbed_iff_absorbedFrom`). -/
structure State.AbsorbedFrom (H : Vector Word 8) (M : List Byte) (s : State) : Prop where
  cnt : s.LENB.toNat % 64 = M.length % 64
  hash : s.H = hashFrom H M (M.length / 64)
  tail : ∀ k : Fin 64, k.val < M.length % 64 → s.BUF[k.val] = M.getD (64 * (M.length / 64) + k.val) 0

theorem absorbed_iff_absorbedFrom (M : List Byte) (s : State) :
    s.Absorbed M ↔ s.LENB.toNat = M.length ∧ s.AbsorbedFrom IV M :=
  ⟨fun ⟨hlen, hhash, htail⟩ => ⟨hlen, by rw [hlen], by rw [hhash, hashBlocks], htail⟩,
    fun ⟨hlen, _, hhash, htail⟩ => ⟨hlen, by rw [hhash, hashBlocks], htail⟩⟩

theorem waiting_length (s : State) : (waiting s).length = s.LENB.toNat % 64 := by
  have hmod : s.LENB.toNat % 64 < 64 := Nat.mod_lt _ (by omega)
  simp [waiting]
  omega

/-- Every state has absorbed its waiting bytes from its own H. -/
theorem absorbedFrom_waiting (s : State) : s.AbsorbedFrom s.H (waiting s) := by
  have hlen := waiting_length s
  have hlt : (waiting s).length < 64 := by omega
  refine ⟨by omega, by rw [Nat.div_eq_of_lt hlt, hashFrom_zero], fun k hk => ?_⟩
  rw [Nat.div_eq_of_lt hlt, List.getD_eq_getElem _ _ (by omega)]
  simp [waiting]

section
variable {H : Vector Word 8} {M : List Byte} {s : State}

/-- BUF after the byte is stored, up to and with that byte. -/
theorem State.AbsorbedFrom.storeByte_BUF (h : s.AbsorbedFrom H M) (b : Byte) (k : Fin 64) (hk : k.val ≤ M.length % 64) :
    (storeByte b s).BUF[k.val] = (M ++ [b]).getD (64 * (M.length / 64) + k.val) 0 := by
  rw [Machine.storeByte_BUF, h.cnt]
  by_cases hlast : k.val = M.length % 64
  · rw [if_pos hlast, show 64 * (M.length / 64) + k.val = M.length by omega]
    simp [List.getD]
  · rw [if_neg hlast, h.tail k (by omega)]
    simp [List.getD, List.getElem?_append, show 64 * (M.length / 64) + k.val < M.length by omega]

/-- When the byte fills the block, BUF is that block of the byte string. -/
theorem State.AbsorbedFrom.storeByte_BUF_full (h : s.AbsorbedFrom H M) (b : Byte) (hfull : M.length % 64 = 63) :
    (storeByte b s).BUF = blockAt (M ++ [b]) (M.length / 64) := by
  refine Vector.ext fun k hk => ?_
  rw [blockAt_getElem _ _ _ hk]
  exact h.storeByte_BUF b ⟨k, hk⟩ (show k ≤ _ by omega)

/-- R112: absorb_byte appends its byte. -/
theorem State.AbsorbedFrom.absorbByte (h : s.AbsorbedFrom H M) (b : Byte) : (absorbByte b s).AbsorbedFrom H (M ++ [b]) := by
  have hcnt := h.cnt
  have hlen : (M ++ [b]).length = M.length + 1 := by simp
  have hold : hashFrom H (M ++ [b]) (M.length / 64) = s.H := by rw [hashFrom_append _ _ _ _ (by omega), h.hash]
  refine ⟨?cnt, ?hash, fun k hk => ?tail⟩
  case cnt => rw [absorbByte_LENB_mod, hlen]; omega
  case hash =>
    rw [absorbByte_H, hlen]
    by_cases hfull : M.length % 64 = 63
    · rw [if_pos (by omega), h.storeByte_BUF_full b hfull, show (M.length + 1) / 64 = M.length / 64 + 1 by omega,
        hashFrom_succ, hold]
    · rw [if_neg (by omega), show (M.length + 1) / 64 = M.length / 64 by omega, hold]
  case tail =>
    rw [hlen] at hk ⊢
    rw [absorbByte_BUF, ← Machine.storeByte_BUF, h.storeByte_BUF b k (by omega),
      show (M.length + 1) / 64 = M.length / 64 by omega]

/-- R111: the payload loop appends its payload. -/
theorem State.AbsorbedFrom.absorbBytes (h : s.AbsorbedFrom H M) (p : List Byte) :
    (absorbBytes p s).AbsorbedFrom H (M ++ p) := by
  induction p generalizing M s with
  | nil => simpa using h
  | cons b p ih => simpa [absorbBytes_cons] using ih (h.absorbByte b)

/-- R114: the body of ABSORB appends its block. -/
theorem State.AbsorbedFrom.absorbBlock (h : s.AbsorbedFrom H M) (p : List Byte) (hp : p.length = 64)
    (haligned : s.LENB.toNat % 64 = 0) : (absorbBlock p s).AbsorbedFrom H (M ++ p) := by
  have hcnt := h.cnt
  have hlen : (M ++ p).length = M.length + 64 := by simp [hp]
  have hblock : payloadBlock p = blockAt (M ++ p) (M.length / 64) := by
    refine Vector.ext fun k hk => ?_
    rw [blockAt_getElem _ _ _ hk, payloadBlock, Vector.getElem_ofFn, show 64 * (M.length / 64) + k = M.length + k by omega]
    simp [List.getD, List.getElem?_append_right]
  refine ⟨?cnt, ?hash, fun k hk => absurd hk (by omega)⟩
  case cnt =>
    have hadd : (s.LENB + 64).toNat = (s.LENB.toNat + 64) % 2 ^ 61 := BitVec.toNat_add s.LENB 64
    rw [absorbBlock_LENB, hadd, hlen]
    omega
  case hash =>
    rw [Machine.absorbBlock, compress_H, hblock, hlen, show (M.length + 64) / 64 = M.length / 64 + 1 by omega,
      hashFrom_succ, hashFrom_append _ _ _ _ (by omega), h.hash]

/-- `AbsorbedFrom` looks at LENB, H and BUF only. -/
theorem State.AbsorbedFrom.of_eq {t : State} (h : s.AbsorbedFrom H M) (h1 : t.LENB = s.LENB) (h2 : t.H = s.H)
    (h3 : t.BUF = s.BUF) : t.AbsorbedFrom H M :=
  ⟨h1 ▸ h.cnt, h2 ▸ h.hash, h3 ▸ h.tail⟩

end

/-! ### The padded blocks (42_padding.md R134) -/

theorem bitlen_eq_ofNat (s : State) : bitlen s = BitVec.ofNat 64 (8 * s.LENB.toNat) := by
  apply BitVec.eq_of_toNat_eq
  have hlt := s.LENB.isLt
  rw [bitlen, toNat_append_eq, BitVec.toNat_ofNat]
  simp only [BitVec.toNat_ofNat]
  omega

theorem withLength_markedBlock (s : State) (hr : s.LENB.toNat % 64 ≤ 55) :
    withLength (bitlen s) (markedBlock s) = padBlockOne s := by
  refine Vector.ext fun k hk => ?_
  simp only [withLength, padBlockOne, Vector.getElem_ofFn, markedBlock_getElem s ⟨k, hk⟩, bitlen_eq_ofNat]
  by_cases hlen : 56 ≤ k
  · simp [hlen, hr, show ¬ k < s.LENB.toNat % 64 by omega, show k ≠ s.LENB.toNat % 64 by omega]
  · simp [hlen]

theorem markedBlock_eq_padBlockOne (s : State) (hr : 56 ≤ s.LENB.toNat % 64) : markedBlock s = padBlockOne s := by
  refine Vector.ext fun k hk => ?_
  simp [padBlockOne, markedBlock_getElem s ⟨k, hk⟩, show ¬ s.LENB.toNat % 64 ≤ 55 by omega]

theorem withLength_zeroRange (s : State) (B : Vector Byte 64) :
    withLength (bitlen s) (zeroRange 0 55 B) = padBlockTwo s := by
  refine Vector.ext fun k hk => ?_
  simp only [withLength, zeroRange, padBlockTwo, Vector.getElem_ofFn, bitlen_eq_ofNat]
  by_cases hlen : 56 ≤ k
  · simp [hlen]
  · simp [hlen, show k ≤ 55 by omega]

/-- R127: H is compressed with one padded block, or with two when the length field has no room in the first. -/
theorem padBlocks_H (s : State) :
    (padBlocks s).H = if s.LENB.toNat % 64 ≤ 55 then compressFn s.H (padBlockOne s)
      else compressFn (compressFn s.H (padBlockOne s)) (padBlockTwo s) := by
  rw [padBlocks_eq, compress_H, padLen_H, padLen_BUF]
  by_cases hr : s.LENB.toNat % 64 ≤ 55
  · rw [if_neg (by omega), if_pos hr, ← withLength_markedBlock s hr]
    simp only [bitlen]
  · rw [if_pos (by omega), if_neg hr, ← withLength_zeroRange s (markedBlock s), ← markedBlock_eq_padBlockOne s (by omega),
      padSpill, padZero_H, padZero_BUF, compress_H, compress_BUF]
    simp only [bitlen, padZero_LENB, compress_LENB]

/-- R127: BUF is left holding the last padded block. -/
theorem padBlocks_BUF (s : State) :
    (padBlocks s).BUF = if s.LENB.toNat % 64 ≤ 55 then padBlockOne s else padBlockTwo s := by
  rw [padBlocks_eq, compress_BUF, padLen_BUF]
  by_cases hr : s.LENB.toNat % 64 ≤ 55
  · rw [if_neg (by omega), if_pos hr, ← withLength_markedBlock s hr]
    simp only [bitlen]
  · rw [if_pos (by omega), if_neg hr, ← withLength_zeroRange s (markedBlock s), padSpill, padZero_BUF, compress_BUF]
    simp only [bitlen, padZero_LENB, compress_LENB]

end Sys2Proof.Machine
end

section
/-! PROOF. The invariant of 10_state.md R36 (a) to (c): it holds at reset, and `fetch`, every command and the refusal of an
illegal header keep it. -/

namespace Sys2Proof.Machine

section
variable {s u : State}

/-! ### The channels -/

/-- The invariant speaks of the ports only through the response and the command in progress. -/
theorem State.Inv.of_sameEngine (h : s.Inv) (he : SameEngine s u) (hrsp : u.rspOut = none)
    (hcur : ∀ c, u.cur = some c → c.got.length < plen c.hdr) : u.Inv := by
  obtain ⟨hH, -, -, -, hLENB, hPHASE, hERR, hERRHDR, hT⟩ := he
  exact
    { phase := hPHASE ▸ h.phase
      fresh := hPHASE ▸ hLENB ▸ hH ▸ h.fresh
      err := hERR ▸ hPHASE ▸ h.err
      errRange := hERR ▸ h.errRange
      errHdr := hPHASE ▸ hERRHDR ▸ h.errHdr
      round := hT ▸ h.round
      response := fun r hr => by simp [hrsp] at hr
      inProgress := fun c hc => ⟨hcur c hc, hrsp⟩ }

theorem hardwareReset_inv (s : State) : (hardwareReset s).Inv := by constructor <;> simp

/-- What the channels give meets the invariant; beside a whole command, none is in progress. -/
def Fetch.Inv : Fetch → Prop
  | .wait u => u.Inv
  | .command _ _ u => u.Inv ∧ u.cur = none

theorem takePayload_inv (hdr : Hdr) (got : List Byte) (h : s.Inv) (hrsp : s.rspOut = none) :
    (takePayload hdr got s).Inv := by
  rcases takePayload_cases hdr got s with ⟨hlt, heq⟩ | ⟨-, heq⟩
  · rw [heq]
    refine h.of_sameEngine (by simp [SameEngine]) hrsp ?_
    rintro _ ⟨⟩
    simpa using hlt
  · rw [heq]
    exact ⟨h.of_sameEngine (by simp [SameEngine]) hrsp (by simp), rfl⟩

theorem takeResponse_inv (h : s.Inv) : (takeResponse s).Inv :=
  h.of_sameEngine (by simp [SameEngine]) rfl fun c hc => (h.inProgress c hc).1

theorem fetch_inv (h : s.Inv) : (fetch s).Inv := by
  have htake := takeResponse_inv h
  rcases fetch_cases s with ⟨-, heq⟩ | ⟨-, -, -, heq⟩ | ⟨-, -, -, heq⟩ | ⟨-, c, -, heq⟩ | ⟨-, hcur, hdr, rest, -, heq⟩ <;>
    rw [heq]
  · exact hardwareReset_inv s
  · exact h
  · exact htake
  · exact takePayload_inv _ _ htake rfl
  · refine takePayload_inv _ _ (htake.of_sameEngine (by simp [SameEngine]) rfl ?_) rfl
    simp [hcur]

/-! ### The outcomes of a command -/

theorem State.Inv.respond (h : s.Inv) (hcur : s.cur = none) (st : BitVec 8) (d : Word) (hst : st.toNat ≤ 9)
    (hd : st ≠ statusOK → d = 0) : (respond st d s).Inv where
  phase := h.phase
  fresh := h.fresh
  err := h.err
  errRange := h.errRange
  errHdr := h.errHdr
  round := h.round
  response := by rintro _ ⟨⟩; exact ⟨hst, hd⟩
  inProgress := by simp [hcur]

theorem answerFaulted_inv (h : s.Inv) (hcur : s.cur = none) : (answerFaulted s).Inv :=
  h.respond hcur statusFaulted 0 (by decide) fun _ => rfl

theorem raiseFault_inv (c : Cause) (hdr : Hdr) (h : s.Inv) (hcur : s.cur = none) : (raiseFault c hdr s).Inv := by
  have hcode := code_range c
  have hne : c.code ≠ 0 := by rintro heq; simp [heq] at hcode
  constructor
  case response => rintro _ ⟨⟩; exact ⟨by rw [statusOf_toNat]; omega, fun _ => rfl⟩
  case errRange => exact hcode.2
  case round => exact h.round
  case err => simpa using hne
  case phase | fresh | errHdr | inProgress => simp [hcur]

theorem refuseHeader_inv (c : Cause) (hdr : Hdr) (h : s.Inv) (hcur : s.cur = none) : (refuseHeader c hdr s).Inv := by
  unfold refuseHeader
  split
  · exact answerFaulted_inv h hcur
  · exact raiseFault_inv c hdr h hcur

theorem initialise_inv (h : s.Inv) (hcur : s.cur = none) : (initialise s).Inv := by
  constructor
  case round => exact h.round
  case response => exact h.response
  case phase | fresh | err | errRange | errHdr | inProgress => simp [hcur]

/-- An accepted command ends in ABSORBING or FINALIZED with ERR, ERRHDR and the ports as they were. -/
theorem Accepts.inv {i : Instr} (h : Accepts s i u) (hinv : s.Inv) (hcur : s.cur = none) (hf : s.PHASE ≠ .fault) : u.Inv := by
  have hERR : s.ERR = 0 := hinv.err.2 hf
  have hERRHDR : s.ERRHDR = 0 := hinv.errHdr hf
  have hT : u.T.toNat ≤ 64 := by
    cases h with
    | write p _ => exact absorbBytes_T p _ hinv.round
    | absorb p _ _ _ => simp
    | finalize => simp
  have hframe : (u.PHASE = .absorbing ∨ u.PHASE = .finalized) ∧ u.ERR = s.ERR ∧ u.ERRHDR = s.ERRHDR ∧
      u.rspOut = s.rspOut ∧ u.cur = s.cur := by
    cases h <;> simp
  obtain ⟨hPHASE, hERR', hERRHDR', hrsp, hcur'⟩ := hframe
  constructor
  case round => exact hT
  case response => rw [hrsp]; exact hinv.response
  case inProgress => simp [hcur', hcur]
  case phase | fresh | err | errRange | errHdr => rcases hPHASE with hp | hp <;> simp [hp, hERR', hERR, hERRHDR', hERRHDR]

theorem exec_inv {i : Instr} (hinv : s.Inv) (hcur : s.cur = none) (h : exec i s = .next u) : u.Inv := by
  cases exec_next h with
  | initialise i _ =>
    exact (initialise_inv hinv hcur).respond hcur statusOK 0 (by decide) fun _ => rfl
  | status | word | byte => exact hinv.respond hcur statusOK _ (by decide) (absurd rfl)
  | faulted => exact answerFaulted_inv hinv hcur
  | faults i c _ _ => exact raiseFault_inv c _ hinv hcur
  | accepts i w hf _ hacc =>
    have hw : w.cur = none := by rw [← hcur]; cases hacc <;> simp
    exact (hacc.inv hinv hcur hf).respond hw statusOK 0 (by decide) fun _ => rfl

end

/-- Settles O6: what `fetch` gives meets the invariant, and so does the outcome of the command it took. -/
theorem stepKeepsInvariant : Obligations.StepKeepsInvariant := by
  unfold Obligations.StepKeepsInvariant
  intro s t hinv hstep
  have hfetch := fetch_inv hinv
  cases hf : fetch s with
  | wait u =>
    rw [hf] at hfetch
    rw [step_of_wait hf] at hstep
    cases hstep
    exact hfetch
  | command hdr p u =>
    rw [hf] at hfetch
    obtain ⟨hu, hcur⟩ := hfetch
    cases hd : decodeCommand hdr p with
    | ok i => exact exec_inv hu hcur (step_of_decoded hf hd ▸ hstep)
    | error c =>
      rw [step_of_illegal hf hd] at hstep
      cases hstep
      exact refuseHeader_inv c hdr hu hcur

/-- Settles O5: hardware reset of the reset state is the reset state. -/
theorem resetMeetsInvariant : Obligations.ResetMeetsInvariant := by
  unfold Obligations.ResetMeetsInvariant
  exact hardwareReset_inv State.reset

end Sys2Proof.Machine
end

section
/-! PROOF. Hidden state (10_state.md R35, R36 (e)): every operation takes two states that agree on what is visible to two
such states, and so does a step. -/

namespace Sys2Proof.Machine

section
variable {s t : State} (h : s.SameVisible t)
include h

/-! ### Operations -/

theorem State.SameVisible.hardwareReset : (hardwareReset s).SameVisible (hardwareReset t) where
  H := rfl
  LENB := rfl
  PHASE := rfl
  ERR := rfl
  ERRHDR := rfl
  waiting _ _ := rfl
  rstN := h.rstN
  cmdIn := h.cmdIn
  plIn := h.plIn
  cur := rfl
  rspOut := rfl
  rspReady := h.rspReady

theorem State.SameVisible.takeResponse : (takeResponse s).SameVisible (takeResponse t) := { h with rspOut := rfl }

theorem State.SameVisible.respond (st : BitVec 8) (d : Word) : (respond st d s).SameVisible (respond st d t) :=
  { h with rspOut := rfl }

theorem State.SameVisible.withPhase (p : Phase) : State.SameVisible { s with PHASE := p } { t with PHASE := p } :=
  { h with PHASE := rfl }

theorem State.SameVisible.raiseFault (c : Cause) (hdr : Hdr) : (raiseFault c hdr s).SameVisible (raiseFault c hdr t) :=
  { h with PHASE := rfl, ERR := rfl, ERRHDR := rfl, rspOut := rfl }

theorem State.SameVisible.refuseHeader (c : Cause) (hdr : Hdr) :
    (refuseHeader c hdr s).SameVisible (refuseHeader c hdr t) := by
  unfold Machine.refuseHeader
  rw [← h.PHASE]
  split
  · exact h.respond statusFaulted 0
  · exact h.raiseFault c hdr

theorem State.SameVisible.initialise : (initialise s).SameVisible (initialise t) :=
  { h with H := rfl, LENB := rfl, PHASE := rfl, ERR := rfl, ERRHDR := rfl, waiting := fun k hk => absurd hk (by simp) }

theorem State.SameVisible.statusWord_eq : statusWord s = statusWord t := by
  simp only [statusWord, bufcnt, h.ERRHDR, h.LENB, h.ERR, h.PHASE]

/-! ### Message bytes -/

theorem State.SameVisible.storeByte_BUF (b : Byte) (k : Fin 64) (hk : k.val ≤ s.LENB.toNat % 64) :
    (storeByte b s).BUF[k.val] = (storeByte b t).BUF[k.val] := by
  rw [Machine.storeByte_BUF, Machine.storeByte_BUF, ← h.LENB]
  by_cases hlast : k.val = s.LENB.toNat % 64
  · rw [if_pos hlast, if_pos hlast]
  · rw [if_neg hlast, if_neg hlast, h.waiting k (by omega)]

theorem State.SameVisible.absorbByte_H (b : Byte) : (absorbByte b s).H = (absorbByte b t).H := by
  rw [Machine.absorbByte_H, Machine.absorbByte_H, ← h.LENB, ← h.H]
  by_cases hfull : (s.LENB.toNat + 1) % 64 = 0
  · have hBUF : (storeByte b s).BUF = (storeByte b t).BUF :=
      Vector.ext fun k hk => h.storeByte_BUF b ⟨k, hk⟩ (show k ≤ _ by omega)
    rw [hBUF]
  · rw [if_neg hfull, if_neg hfull]

theorem State.SameVisible.absorbByte (b : Byte) : (absorbByte b s).SameVisible (absorbByte b t) where
  H := h.absorbByte_H b
  LENB := by rw [absorbByte_LENB_eq, absorbByte_LENB_eq, h.LENB]
  waiting k hk := by
    rw [absorbByte_LENB_mod] at hk
    rw [absorbByte_BUF, absorbByte_BUF, ← Machine.storeByte_BUF, ← Machine.storeByte_BUF]
    exact h.storeByte_BUF b k (by omega)
  PHASE := by simp [h.PHASE]
  ERR := by simp [h.ERR]
  ERRHDR := by simp [h.ERRHDR]
  rstN := by simp [h.rstN]
  cmdIn := by simp [h.cmdIn]
  plIn := by simp [h.plIn]
  cur := by simp [h.cur]
  rspOut := by simp [h.rspOut]
  rspReady := by simp [h.rspReady]

omit h in
theorem State.SameVisible.absorbBytes (h : s.SameVisible t) (p : List Byte) :
    (absorbBytes p s).SameVisible (absorbBytes p t) := by
  induction p generalizing s t with
  | nil => exact h
  | cons b p ih => exact ih (h.absorbByte b)

theorem State.SameVisible.absorbBlock (p : List Byte) : (absorbBlock p s).SameVisible (absorbBlock p t) :=
  { h with
    H := by simp only [Machine.absorbBlock, compress_H, h.H]
    LENB := by rw [absorbBlock_LENB, absorbBlock_LENB, h.LENB]
    waiting := fun _ _ => rfl }

theorem State.SameVisible.padBlockOne_eq : padBlockOne s = padBlockOne t := by
  refine Vector.ext fun k hk => ?_
  simp only [padBlockOne, Vector.getElem_ofFn, ← h.LENB]
  by_cases hw : k < s.LENB.toNat % 64
  · rw [if_pos hw, if_pos hw]
    exact h.waiting ⟨k, hk⟩ hw
  · rw [if_neg hw, if_neg hw]

theorem State.SameVisible.padBlockTwo_eq : padBlockTwo s = padBlockTwo t := by
  rw [padBlockTwo, padBlockTwo, h.LENB]

theorem State.SameVisible.padBlocks : (padBlocks s).SameVisible (padBlocks t) where
  H := by rw [padBlocks_H, padBlocks_H, h.padBlockOne_eq, h.padBlockTwo_eq, h.H, h.LENB]
  LENB := by simp [h.LENB]
  waiting _ _ := by rw [padBlocks_BUF, padBlocks_BUF, h.padBlockOne_eq, h.padBlockTwo_eq, h.LENB]
  PHASE := by simp [h.PHASE]
  ERR := by simp [h.ERR]
  ERRHDR := by simp [h.ERRHDR]
  rstN := by simp [h.rstN]
  cmdIn := by simp [h.cmdIn]
  plIn := by simp [h.plIn]
  cur := by simp [h.cur]
  rspOut := by simp [h.rspOut]
  rspReady := by simp [h.rspReady]

/-! ### Commands -/

theorem Faults.of_sameVisible {i : Instr} {c : Cause} (hf : Faults s i c) : Faults t i c := by
  have hPHASE := h.PHASE
  have hLENB := h.LENB
  cases hf with
  | srcerr => exact .srcerr
  | finalFinalize hz => exact .finalFinalize (hPHASE ▸ hz)
  | finalWrite p hz => exact .finalWrite p (hPHASE ▸ hz)
  | overWrite p hz ho => exact .overWrite p (hPHASE ▸ hz) (hLENB ▸ ho)
  | length p hl => exact .length p hl
  | finalAbsorb p hl hz => exact .finalAbsorb p hl (hPHASE ▸ hz)
  | align p hl hz ha => exact .align p hl (hPHASE ▸ hz) (hLENB ▸ ha)
  | overAbsorb p hl hz ha ho => exact .overAbsorb p hl (hPHASE ▸ hz) (hLENB ▸ ha) (hLENB ▸ ho)
  | indexWord x hx => exact .indexWord x hx
  | earlyWord x hx hz => exact .earlyWord x hx (hPHASE ▸ hz)
  | indexByte x hx => exact .indexByte x hx
  | earlyByte x hx hz => exact .earlyByte x hx (hPHASE ▸ hz)

theorem Accepts.of_sameVisible {i : Instr} {u : State} (ha : Accepts s i u) :
    ∃ w, Accepts t i w ∧ u.SameVisible w := by
  have hLENB := h.LENB
  cases ha with
  | write p hle => exact ⟨_, .write p (hLENB ▸ hle), (h.withPhase .absorbing).absorbBytes p⟩
  | absorb p hl hal hle => exact ⟨_, .absorb p hl (hLENB ▸ hal) (hLENB ▸ hle), (h.withPhase .absorbing).absorbBlock p⟩
  | finalize => exact ⟨_, .finalize, (h.withPhase .padding).padBlocks.withPhase .finalized⟩

theorem ExecCase.of_sameVisible {i : Instr} {u : State} (hc : ExecCase s i u) :
    ∃ w, ExecCase t i w ∧ u.SameVisible w := by
  have hPHASE := h.PHASE
  have hH := h.H
  cases hc with
  | initialise i hi => exact ⟨_, .initialise i hi, h.initialise.respond _ _⟩
  | status => exact ⟨_, .status, h.statusWord_eq ▸ h.respond _ _⟩
  | faulted i hp h1 h2 h3 => exact ⟨_, .faulted i (hPHASE ▸ hp) h1 h2 h3, h.respond _ _⟩
  | faults i c hp hf => exact ⟨_, .faults i c (hPHASE ▸ hp) (hf.of_sameVisible h), h.raiseFault _ _⟩
  | word x hp hx => exact ⟨_, .word x (hPHASE ▸ hp) hx, by rw [hH]; exact h.respond _ _⟩
  | byte x hp hx => exact ⟨_, .byte x (hPHASE ▸ hp) hx, by rw [hH]; exact h.respond _ _⟩
  | accepts i u h1 h2 ha =>
    obtain ⟨w, hw, hvis⟩ := ha.of_sameVisible h
    exact ⟨_, .accepts i w (hPHASE ▸ h1) (hPHASE ▸ h2) hw, hvis.respond _ _⟩

theorem exec_of_sameVisible (i : Instr) :
    ∃ u w, exec i s = .next u ∧ exec i t = .next w ∧ u.SameVisible w := by
  obtain ⟨u, hu, hcase⟩ := exec_cases i s
  obtain ⟨w, hw, hvis⟩ := hcase.of_sameVisible h
  exact ⟨u, w, hu, hw.exec_eq, hvis⟩

end

/-! ### The channels -/

/-- The channels give both states the same: nothing to execute, or the same whole command. -/
inductive Fetch.SameVisible : Fetch → Fetch → Prop
  | wait {s t : State} (h : s.SameVisible t) : SameVisible (.wait s) (.wait t)
  | command (hdr : Hdr) (p : List Byte) {s t : State} (h : s.SameVisible t) :
      SameVisible (.command hdr p s) (.command hdr p t)

section
variable {s t : State} (h : s.SameVisible t)
include h

theorem takePayload_sameVisible (hdr : Hdr) (got : List Byte) :
    (takePayload hdr got s).SameVisible (takePayload hdr got t) := by
  simp only [takePayload, ← h.plIn]
  split
  · exact .wait { h with plIn := rfl, cur := rfl }
  · exact .command _ _ { h with plIn := rfl, cur := rfl }

theorem fetch_sameVisible : (fetch s).SameVisible (fetch t) := by
  unfold fetch
  rw [← h.rstN, ← h.rspOut, ← h.rspReady, ← h.cur, ← h.cmdIn]
  split
  · exact .wait h.hardwareReset
  split
  · exact .wait h
  cases s.cur with
  | some c => exact takePayload_sameVisible h.takeResponse c.hdr c.got
  | none =>
    cases s.cmdIn with
    | nil => exact .wait h.takeResponse
    | cons hdr rest =>
      have hrest : State.SameVisible { Machine.takeResponse s with cmdIn := rest }
          { Machine.takeResponse t with cmdIn := rest } := { h.takeResponse with cmdIn := rfl }
      exact takePayload_sameVisible hrest hdr []

end

/-- Settles O7: both states are given the same by their channels, and execute it to states that agree again. -/
theorem hiddenStateUnobservable : Obligations.HiddenStateUnobservable := by
  unfold Obligations.HiddenStateUnobservable
  intro s t h
  have hfetch := fetch_sameVisible h
  generalize hfs : fetch s = fs, hft : fetch t = ft at hfetch
  cases hfetch with
  | wait hu => exact ⟨_, _, step_of_wait hfs, step_of_wait hft, hu⟩
  | command hdr p hu =>
    cases hd : decodeCommand hdr p with
    | ok i =>
      rw [step_of_decoded hfs hd, step_of_decoded hft hd]
      exact exec_of_sameVisible hu i
    | error c => exact ⟨_, _, step_of_illegal hfs hd, step_of_illegal hft hd, hu.refuseHeader c hdr⟩

end Sys2Proof.Machine
end

section
/-! PROOF. The registers of 10_state.md one by one: what each command leaves in LENB and H, STATUS field by field, the
level outputs, and the values after reset. -/

namespace Sys2Proof.Machine

/-! ### LENB and H after a command -/

theorem raiseFault_rspOut_ne_OK (c : Cause) (hdr : Hdr) (s : State) :
    (raiseFault c hdr s).rspOut ≠ some ⟨statusOK, 0⟩ := by
  simp [statusOf_ne_OK]

theorem statusFaulted_ne_OK : statusFaulted ≠ statusOK := by decide

theorem answerFaulted_rspOut_ne_OK (s : State) : (answerFaulted s).rspOut ≠ some ⟨statusOK, 0⟩ := by
  simp [statusFaulted_ne_OK]

/-- An accepted WRITE or ABSORB counts its payload, and the sum does not pass 2^61 - 1 (R25, R117). -/
theorem Accepts.ingest_LENB {i : Instr} {s u : State} (h : Accepts s i u) (hi : isIngest i = true) :
    u.LENB.toNat = s.LENB.toNat + (payloadOf i).length ∧ s.LENB.toNat + (payloadOf i).length ≤ 2 ^ 61 - 1 := by
  cases h with
  | write p hle => exact ⟨absorbBytes_LENB p _ hle, hle⟩
  | absorb p hl _ hle =>
    rw [payloadOf, hl]
    exact ⟨add64_toNat s hle, hle⟩
  | finalize => cases hi

/-- An accepted WRITE or ABSORB appends its payload to what the state has absorbed (R111, R114). -/
theorem Accepts.ingest_absorbedFrom {i : Instr} {s u : State} {H : Vector Word 8} {M : List Byte} (h : Accepts s i u)
    (hi : isIngest i = true) (hs : s.AbsorbedFrom H M) : u.AbsorbedFrom H (M ++ payloadOf i) := by
  have hphase : State.AbsorbedFrom H M { s with PHASE := .absorbing } := hs.of_eq rfl rfl rfl
  cases h with
  | write p _ => exact hphase.absorbBytes p
  | absorb p hl ha _ => exact hphase.absorbBlock p hl ha
  | finalize => cases hi

/-- An accepted FINALIZE compresses its padded blocks from the old H (R127, R134). -/
theorem Accepts.finalize_H {s u : State} (h : Accepts s .finalize u) :
    u.H = if s.LENB.toNat % 64 ≤ 55 then compressFn s.H (padBlockOne s)
      else compressFn (compressFn s.H (padBlockOne s)) (padBlockTwo s) := by
  cases h
  simpa only [padBlockOne, padBlockTwo] using padBlocks_H { s with PHASE := .padding }

/-- Only initialise and accepted commands write LENB and H, and a WRITE, ABSORB or FINALIZE that is not accepted is not
answered OK. -/
theorem exec_message_cases {i : Instr} {s t : State} (h : exec i s = .next t) :
    ((i = .init ∨ i = .reset) ∧ t = respond statusOK 0 (initialise s)) ∨
    (∃ u, Accepts s i u ∧ t = respond statusOK 0 u) ∨
    (i ≠ .init ∧ i ≠ .reset ∧ t.LENB = s.LENB ∧ t.H = s.H ∧
      (isIngest i = true ∨ i = .finalize → t.rspOut ≠ some ⟨statusOK, 0⟩)) := by
  cases exec_next h with
  | initialise i hi => exact .inl ⟨hi, rfl⟩
  | accepts i u _ _ ha => exact .inr (.inl ⟨u, ha, rfl⟩)
  | status | word | byte => exact .inr (.inr (by simp [isIngest]))
  | faulted i _ hinit hreset _ =>
    exact .inr (.inr ⟨hinit, hreset, rfl, rfl, fun _ => answerFaulted_rspOut_ne_OK s⟩)
  | faults i c _ hf =>
    obtain ⟨hinit, hreset, -⟩ := hf.not_exempt
    exact .inr (.inr ⟨hinit, hreset, rfl, rfl, fun _ => raiseFault_rspOut_ne_OK c _ s⟩)

/-- Settles O8: only an accepted WRITE or ABSORB counts, and only initialise clears. -/
theorem lengthCounter : Obligations.LengthCounter := by
  unfold Obligations.LengthCounter
  intro i s t h
  rcases exec_message_cases h with ⟨hi, rfl⟩ | ⟨u, ha, rfl⟩ | ⟨hinit, hreset, hLENB, -, hrsp⟩
  · rcases hi with rfl | rfl <;> simp [isIngest]
  · have hcount := ha.ingest_LENB
    cases ha with
    | write p _ => simpa [isIngest] using hcount
    | absorb p _ _ _ => simpa [isIngest] using hcount
    | finalize => simp [isIngest]
  · exact ⟨fun hi => (hi.elim hinit hreset).elim, fun hi hok => absurd hok (hrsp (.inl hi)), fun _ _ => hLENB,
      fun _ _ _ => hLENB⟩

/-- Settles O9: the blocks of a WRITE or ABSORB by `AbsorbedFrom`, those of FINALIZE by `padBlocks_H`. -/
theorem hashStateWriters : Obligations.HashStateWriters := by
  unfold Obligations.HashStateWriters
  intro i s t h
  rcases exec_message_cases h with ⟨hi, rfl⟩ | ⟨u, ha, rfl⟩ | ⟨hinit, hreset, -, hH, hrsp⟩
  · rcases hi with rfl | rfl <;> simp [isIngest]
  · have hblocks : isIngest i = true →
        u.H = hashFrom s.H (waiting s ++ payloadOf i) ((s.LENB.toNat % 64 + (payloadOf i).length) / 64) := fun hi => by
      rw [(ha.ingest_absorbedFrom hi (absorbedFrom_waiting s)).hash, List.length_append, waiting_length]
    have hpadded : i = .finalize → u.H = _ := fun hi => (hi ▸ ha).finalize_H
    cases ha with
    | write p _ => simpa [isIngest] using hblocks
    | absorb p _ _ _ => simpa [isIngest] using hblocks
    | finalize => simpa [isIngest] using hpadded
  · exact ⟨fun hi => (hi.elim hinit hreset).elim, fun hi hok => absurd hok (hrsp (.inl hi)),
      fun hi hok => absurd hok (hrsp (.inr hi)), fun _ _ => hH, fun _ _ _ _ => hH⟩

/-! ### STATUS and the level outputs -/

theorem statusWord_toNat (s : State) :
    (statusWord s).toNat = s.ERRHDR.toNat * 2 ^ 16 + s.LENB.toNat % 64 * 2 ^ 8 + s.ERR.toNat * 2 ^ 4 + s.PHASE.code.toNat := by
  rw [statusWord, toNat_append_eq, toNat_append_eq, toNat_append_eq, toNat_append_eq, toNat_append_eq, bufcnt_toNat]
  simp only [BitVec.toNat_ofNat]
  omega

theorem extractLsb'_eq_of_toNat {w n lo : Nat} {x : BitVec w} {f : BitVec n} (h : x.toNat / 2 ^ lo % 2 ^ n = f.toNat) :
    x.extractLsb' lo n = f := by
  apply BitVec.eq_of_toNat_eq
  rw [BitVec.extractLsb'_toNat, Nat.shiftRight_eq_div_pow, h]

/-- R30: the fields of STATUS, each read off its number. -/
theorem statusWord_fields (s : State) :
    (statusWord s).extractLsb' 0 3 = s.PHASE.code ∧ (statusWord s).extractLsb' 3 1 = 0#1 ∧
    (statusWord s).extractLsb' 4 4 = s.ERR ∧ (statusWord s).extractLsb' 8 6 = bufcnt s ∧
    (statusWord s).extractLsb' 14 2 = 0#2 ∧ (statusWord s).extractLsb' 16 16 = s.ERRHDR := by
  have hERR := s.ERR.isLt
  have hERRHDR := s.ERRHDR.isLt
  have hPHASE := s.PHASE.code.isLt
  have hnum := statusWord_toNat s
  have hcnt := bufcnt_toNat s
  have hzero1 : (0#1).toNat = 0 := rfl
  have hzero2 : (0#2).toNat = 0 := rfl
  refine ⟨?_, ?_, ?_, ?_, ?_, ?_⟩ <;> apply extractLsb'_eq_of_toNat
  all_goals omega

/-- Settles O10: RDSTAT answers `statusWord`, whose fields are those of `statusWord_fields`. -/
theorem rdstatReturnsStatusFields : Obligations.RdstatReturnsStatusFields := by
  unfold Obligations.RdstatReturnsStatusFields
  intro s
  obtain ⟨hPHASE, hzero3, hERR, hBUFCNT, hzero14, hERRHDR⟩ := statusWord_fields s
  have hcode : ∀ p, s.PHASE = p → (statusWord s).extractLsb' 0 3 = p.code := fun p hp => hp ▸ hPHASE
  exact ⟨statusWord s, rfl, hPHASE, hcode _, hcode _, hcode _, hcode _, hcode _, hzero3, hERR, hBUFCNT, hzero14, hERRHDR⟩

theorem oFinal_iff (s : State) : oFinal s = true ↔ s.PHASE = .finalized := decide_eq_true_iff

theorem oFault_iff (s : State) : oFault s = true ↔ s.PHASE = .fault := decide_eq_true_iff

theorem code_eq_three_iff (p : Phase) : p.code = 3#3 ↔ p = .finalized := by cases p <;> decide

theorem code_eq_four_iff (p : Phase) : p.code = 4#3 ↔ p = .fault := by cases p <;> decide

/-- Settles O11: each output by the phase that the command leaves. -/
theorem levelOutputsFollowPhase : Obligations.LevelOutputsFollowPhase := by
  unfold Obligations.LevelOutputsFollowPhase
  refine ⟨fun s => ⟨?final, ?fault⟩, ?initialise, ?finalize, fun c hdr s => by simp [oFinal, oFault]⟩
  case final => rw [oFinal_iff, code_eq_three_iff]
  case fault => rw [oFault_iff, code_eq_four_iff]
  case initialise => rintro s t (⟨⟨⟩⟩ | ⟨⟨⟩⟩) <;> simp [oFinal, oFault]
  case finalize =>
    intro s t h hok
    rcases exec_message_cases h with ⟨hi, -⟩ | ⟨u, ha, rfl⟩ | ⟨-, -, -, -, hrsp⟩
    · simp at hi
    · cases ha
      simp [oFinal, oFault]
    · exact absurd hok (hrsp (.inr rfl))

/-! ### Reset -/

/-- STATUS is 0 in the phase INIT with no fault recorded and no byte counted. -/
theorem statusWord_eq_zero {s : State} (hL : s.LENB = 0) (hP : s.PHASE = .init) (hE : s.ERR = 0) (hEH : s.ERRHDR = 0) :
    statusWord s = 0 := by
  simp [statusWord, bufcnt, hL, hP, hE, hEH, Phase.code]

theorem hardwareReset_values (s : State) :
    (hardwareReset s).H = IV ∧ (hardwareReset s).LENB = 0 ∧ (hardwareReset s).PHASE = .init ∧ (hardwareReset s).ERR = 0 ∧
    (hardwareReset s).ERRHDR = 0 ∧ (hardwareReset s).T = 0 ∧ statusWord (hardwareReset s) = 0 ∧
    oFinal (hardwareReset s) = false ∧ oFault (hardwareReset s) = false :=
  ⟨rfl, rfl, rfl, rfl, rfl, rfl, statusWord_eq_zero rfl rfl rfl rfl, rfl, rfl⟩

/-- Settles O2: hardware reset of State.reset is State.reset, and INIT and RESET are `initialise` with a response. -/
theorem resetValues : Obligations.ResetValues := by
  unfold Obligations.ResetValues
  refine fun s => ⟨?hardware, ?command⟩
  case hardware =>
    rintro r (rfl | rfl)
    · exact hardwareReset_values State.reset
    · exact hardwareReset_values s
  case command =>
    have hexec : ∀ i : Instr, i = .init ∨ i = .reset → exec i s = .next (respond statusOK 0 (initialise s)) :=
      fun i hi => (ExecCase.initialise i hi).exec_eq
    exact fun i hi => ⟨_, hexec i hi, rfl, rfl, rfl, rfl, rfl, rfl, rfl, rfl, rfl,
      statusWord_eq_zero rfl rfl rfl rfl, rfl, rfl⟩

end Sys2Proof.Machine
end

section
/-! PROOF. The digest seen as bytes (20_memory.md R55, 45_readout.md R170): byte 4i + k is byte k of word H[i], so `be32`
gives the word back. -/

namespace Sys2Proof.Machine

/-- R170: four digest bytes to a word, `byte` numbering them. -/
theorem digestByte_four_mul_add (H : Vector Word 8) (i : Fin 8) (k : Fin 4) :
    digestByte H ⟨4 * i.val + k.val, by omega⟩ = byteOf H[i.val] k.val := by
  have hword : (4 * i.val + k.val) / 4 = i.val := by omega
  have hbyte : (4 * i.val + k.val) % 4 = k.val := by omega
  simp only [digestByte, hword, hbyte]

theorem exec_rdw_ofNat {s : State} (hp : s.PHASE = .finalized) (i : Fin 8) :
    exec (.rdw (BitVec.ofNat 8 i.val)) s = .next (respond statusOK s.H[i.val] s) := by
  have hidx : (BitVec.ofNat 8 i.val).toNat = i.val := Nat.mod_eq_of_lt (by omega)
  simpa only [hidx] using (ExecCase.word (BitVec.ofNat 8 i.val) hp (by omega)).exec_eq

theorem exec_rdb_ofNat {s : State} (hp : s.PHASE = .finalized) (j : Fin 32) :
    exec (.rdb (BitVec.ofNat 8 j.val)) s = .next (respond statusOK ((digestByte s.H j).setWidth 32) s) := by
  have hidx : (BitVec.ofNat 8 j.val).toNat = j.val := Nat.mod_eq_of_lt (by omega)
  simpa only [hidx] using (ExecCase.byte (BitVec.ofNat 8 j.val) hp (by omega)).exec_eq

/-- Settles O48: RDB 4i + k answers byte k of H[i], and `be32_byteOf` puts the four together. -/
theorem wordViewIsFourBytes : Obligations.WordViewIsFourBytes := by
  unfold Obligations.WordViewIsFourBytes
  intro s i hp
  refine ⟨s.H[i.val], fun k => digestByte s.H ⟨4 * i.val + k.val, by omega⟩, exec_rdw_ofNat hp i,
    fun k => exec_rdb_ofNat hp ⟨4 * i.val + k.val, by omega⟩, ?_⟩
  simp only [digestByte_four_mul_add]
  exact (be32_byteOf s.H[i.val]).symm

end Sys2Proof.Machine
end

section
/-! PROOF. The decoder and the encoder against each other (30_encoding.md R71 to R81): the byte-serial form, the opcode
table by its three fields, the classes of headers. -/

namespace Sys2Proof

/-! ### The byte-serial form -/

@[simp] theorem hdrBytes_hdrOfBytes (hi lo : Byte) : hdrBytes (hdrOfBytes hi lo) = [hi, lo] := by
  have hlo : arg (hi ++ lo) = lo := arg_append hi lo
  have hhi : (hi ++ lo : Hdr).extractLsb' 8 8 = hi := by
    apply BitVec.eq_of_toNat_eq
    rw [Machine.toNat_extractLsb'_byte, toNat_append_eq]
    have := hi.isLt; have := lo.isLt; omega
  simp only [hdrBytes, hdrOfBytes, hhi]
  exact congrArg (fun b => [hi, b]) hlo

/-- Decoding succeeds exactly on the bytes of a header that decodes, the payload it owns, and the rest. -/
theorem decode_eq_ok_iff (bs : List Byte) (i : Instr) (rest : List Byte) :
    decode bs = .ok (i, rest) ↔
      ∃ hdr p, bs = hdrBytes hdr ++ p ++ rest ∧ p.length = plen hdr ∧ decodeCommand hdr p = .ok i := by
  constructor
  · intro h
    match bs, h with
    | hi :: lo :: tail, h =>
      simp only [decode] at h
      split at h
      · cases h
      next hlen =>
      split at h
      · next hd =>
        cases h
        refine ⟨hdrOfBytes hi lo, tail.take (plen (hdrOfBytes hi lo)), ?_, ?_, hd⟩
        · simp
        · rw [List.length_take]; omega
      · cases h
  · rintro ⟨hdr, p, rfl, hlen, hd⟩
    simp [decode, hdrBytes, ← hlen, hd]

/-- Settles O12: the payload is what the header owns, and the header decodes to its command. -/
theorem decodeEncodeRoundTrip : Obligations.DecodeEncodeRoundTrip := by
  unfold Obligations.DecodeEncodeRoundTrip
  intro i rest hwf
  exact (decode_eq_ok_iff _ i rest).2
    ⟨headerOf i, payloadOf i, rfl, (plen_headerOf i hwf).symm, decodeCommand_headerOf i⟩

/-- Settles O13: a header that decodes, with its payload, is that of the command. -/
theorem encodeDecodeRoundTrip : Obligations.EncodeDecodeRoundTrip := by
  unfold Obligations.EncodeDecodeRoundTrip
  intro bs i rest h
  obtain ⟨hdr, p, rfl, hlen, hd⟩ := (decode_eq_ok_iff bs i rest).1 h
  obtain ⟨rfl, rfl⟩ := decodeCommand_ok hdr p i hlen hd
  exact ⟨wf_of_plen i hlen.symm, rfl⟩

/-- Settles O14: the legal strings are byte-serial forms, and the decoder evaluates on the illegal ones. -/
theorem decodeSampleHeaders : Obligations.DecodeSampleHeaders := by
  unfold Obligations.DecodeSampleHeaders
  have hlegal := decodeEncodeRoundTrip
  exact ⟨hlegal .init [] rfl, hlegal (.write [0x61#8, 0x62#8, 0x63#8]) [] rfl,
    hlegal (.absorb [0x61#8, 0x62#8]) [0x40#8] rfl, hlegal .finalize [] rfl, hlegal .reset [] rfl,
    hlegal (.rdw 7#8) [] rfl, hlegal (.rdb 31#8) [] rfl, hlegal .rdstat [] rfl, hlegal .srcerr [] rfl, rfl, rfl, rfl, rfl⟩

/-! ### The length of a command -/

theorem encode_length (i : Instr) (hwf : i.wf = true) : (encode i).length = 2 + plen (headerOf i) := by
  rw [encode, List.length_append, plen_headerOf i hwf]
  rfl

theorem plen_append (o z : BitVec 4) (a : BitVec 8) :
    plen (o ++ z ++ a) = if o = 2#4 ∨ o = 3#4 then a.toNat else 0 := by
  have hopc : opc (o ++ z ++ a) = o := by
    rw [opc_append]
    apply BitVec.eq_of_toNat_eq
    rw [BitVec.extractLsb'_toNat, Nat.shiftRight_eq_div_pow, toNat_append_eq]
    have := o.isLt; have := z.isLt; omega
  rw [plen, hopc, arg_append]

/-- Settles O17: the payload is what the header owns, at most 255 bytes. -/
theorem commandLength : Obligations.CommandLength := by
  unfold Obligations.CommandLength
  refine ⟨fun i hwf => ?_, plen_append⟩
  have hlen := encode_length i hwf
  have hmax := plen_le (headerOf i)
  omega

/-! ### The opcode table by fields (R71, R81) -/

theorem hdr_eq_iff (x y : Hdr) : x = y ↔ opc x = opc y ∧ zeroField x = zeroField y ∧ arg x = arg y := by
  refine ⟨by rintro rfl; exact ⟨rfl, rfl, rfl⟩, fun ⟨ho, hz, ha⟩ => ?_⟩
  rw [← BitVec.toNat_inj] at ho hz ha ⊢
  rw [opc_toNat, opc_toNat] at ho
  rw [zeroField_toNat, zeroField_toNat] at hz
  rw [arg_toNat, arg_toNat] at ha
  omega

theorem opc_and (x y : Hdr) : opc (x &&& y) = opc x &&& opc y := BitVec.extractLsb'_and

theorem zeroField_and (x y : Hdr) : zeroField (x &&& y) = zeroField x &&& zeroField y := BitVec.extractLsb'_and

theorem arg_and (x y : Hdr) : arg (x &&& y) = arg x &&& arg y := BitVec.extractLsb'_and

/-- Every row masks all of OPC and ZERO, asks ZERO = 0, and either leaves ARG free or asks ARG = 0. -/
theorem opcodeRows_fields : ∀ row ∈ opcodeRows, opc row.mask = 0xF#4 ∧ zeroField row.mask = 0xF#4 ∧
    zeroField row.pattern = 0 ∧ arg row.pattern = 0 ∧ (arg row.mask = 0 ∨ arg row.mask = 0xFF#8) := by decide

/-- What it is to match a row. -/
theorem matches_row_iff (hdr : Hdr) {row : OpcodeRow} (hrow : row ∈ opcodeRows) :
    hdr &&& row.mask = row.pattern ↔
      opc hdr = opc row.pattern ∧ zeroField hdr = 0 ∧ (arg row.mask = 0 ∨ arg hdr = 0) := by
  obtain ⟨hopc, hzero, hzero0, harg0, harg⟩ := opcodeRows_fields row hrow
  have hall4 : ∀ x : BitVec 4, x &&& 0xF#4 = x := fun x => BitVec.and_allOnes
  have hall8 : ∀ x : BitVec 8, x &&& 0xFF#8 = x := fun x => BitVec.and_allOnes
  rw [hdr_eq_iff, opc_and, zeroField_and, arg_and, hopc, hzero, hzero0, harg0, hall4, hall4]
  rcases harg with harg | harg
  · simp [harg]
  · simp [harg, hall8]

/-- The OPC of a row's pattern names the row. -/
theorem opcodeRows_opc_inj : ∀ r1 ∈ opcodeRows, ∀ r2 ∈ opcodeRows, opc r1.pattern = opc r2.pattern → r1 = r2 := by decide

theorem opcodeRows_opc_range : ∀ row ∈ opcodeRows, 1 ≤ (opc row.pattern).toNat ∧ (opc row.pattern).toNat ≤ 9 := by decide

/-- What the decoder answers to a header, with the row that says so. -/
inductive RowOutcome (hdr : Hdr) : Except Cause Instr → Prop where
  | row {i : Instr} (row : OpcodeRow) (hrow : row ∈ opcodeRows) (hname : row.mnemonic = mnemonicOf i)
      (hmatch : hdr &&& row.mask = row.pattern) : RowOutcome hdr (.ok i)
  | noRow (h : ∀ row ∈ opcodeRows, hdr &&& row.mask ≠ row.pattern) : RowOutcome hdr (.error .E_ILLEGAL)

section
variable {hdr : Hdr} {i : Instr} (hz : zeroField hdr = 0) (row : OpcodeRow) (hrow : row ∈ opcodeRows)
  (hopc : (opc hdr).toNat = (opc row.pattern).toNat) (hname : row.mnemonic = mnemonicOf i)
include hz hrow hopc hname

/-- The answer to the OPC of a row whose ARG is free. -/
theorem rowOutcome_operand (hmask : arg row.mask = 0) : RowOutcome hdr (.ok i) :=
  .row row hrow hname ((matches_row_iff hdr hrow).2 ⟨BitVec.eq_of_toNat_eq hopc, hz, .inl hmask⟩)

/-- The answer to the OPC of a row that asks ARG = 0: with another ARG, no row has that OPC. -/
theorem rowOutcome_noOperand (hmask : arg row.mask ≠ 0) :
    RowOutcome hdr (if arg hdr = 0 then .ok i else .error .E_ILLEGAL) := by
  have hopc := BitVec.eq_of_toNat_eq hopc
  split
  · next ha => exact .row row hrow hname ((matches_row_iff hdr hrow).2 ⟨hopc, hz, .inr ha⟩)
  · next ha =>
    refine .noRow fun other hother hmatch => ?_
    obtain ⟨hopc', -, harg⟩ := (matches_row_iff hdr hother).1 hmatch
    obtain rfl := opcodeRows_opc_inj other hother row hrow (hopc'.symm.trans hopc)
    exact harg.elim hmask ha

end

theorem decodeCommand_rowOutcome (hdr : Hdr) (p : List Byte) : RowOutcome hdr (decodeCommand hdr p) := by
  unfold decodeCommand
  split
  · next hz => exact .noRow fun row hrow hmatch => hz ((matches_row_iff hdr hrow).1 hmatch).2.1
  next hz =>
  have hz : zeroField hdr = 0 := not_not.1 hz
  split
  · next ho => exact rowOutcome_noOperand hz ⟨"INIT", 0xFFFF#16, 0x1000#16⟩ (by decide) ho rfl (by decide)
  · next ho => exact rowOutcome_operand hz ⟨"WRITE", 0xFF00#16, 0x2000#16⟩ (by decide) ho rfl rfl
  · next ho => exact rowOutcome_operand hz ⟨"ABSORB", 0xFF00#16, 0x3000#16⟩ (by decide) ho rfl rfl
  · next ho => exact rowOutcome_noOperand hz ⟨"FINALIZE", 0xFFFF#16, 0x4000#16⟩ (by decide) ho rfl (by decide)
  · next ho => exact rowOutcome_noOperand hz ⟨"RESET", 0xFFFF#16, 0x5000#16⟩ (by decide) ho rfl (by decide)
  · next ho => exact rowOutcome_operand hz ⟨"RDW", 0xFF00#16, 0x6000#16⟩ (by decide) ho rfl rfl
  · next ho => exact rowOutcome_operand hz ⟨"RDB", 0xFF00#16, 0x7000#16⟩ (by decide) ho rfl rfl
  · next ho => exact rowOutcome_noOperand hz ⟨"RDSTAT", 0xFFFF#16, 0x8000#16⟩ (by decide) ho rfl (by decide)
  · next ho => exact rowOutcome_noOperand hz ⟨"SRCERR", 0xFFFF#16, 0x9000#16⟩ (by decide) ho rfl (by decide)
  · next h1 h2 h3 h4 h5 h6 h7 h8 h9 =>
    refine .noRow fun row hrow hmatch => ?_
    have hopc := ((matches_row_iff hdr hrow).1 hmatch).1
    have hrange := opcodeRows_opc_range row hrow
    simp only [hopc, imp_false] at h1 h2 h3 h4 h5 h6 h7 h8 h9
    omega

/-- Settles O15: the decoder by `RowOutcome`; two rows that a header matches have its OPC. -/
theorem decoderReadsOpcodeTable : Obligations.DecoderReadsOpcodeTable := by
  unfold Obligations.DecoderReadsOpcodeTable
  refine ⟨fun hdr p i h => ?decodes, fun hdr p c h => ?illegal, fun hdr r1 h1 r2 h2 hm1 hm2 => ?unique⟩
  case decodes =>
    cases h ▸ decodeCommand_rowOutcome hdr p with
    | row row hrow hname hmatch => exact ⟨row, hrow, hname, hmatch⟩
  case illegal =>
    cases h ▸ decodeCommand_rowOutcome hdr p with
    | noRow hno => exact ⟨rfl, hno⟩
  case unique =>
    have hopc1 := ((matches_row_iff hdr h1).1 hm1).1
    have hopc2 := ((matches_row_iff hdr h2).1 hm2).1
    exact opcodeRows_opc_inj r1 h1 r2 h2 (hopc1.symm.trans hopc2)

/-! ### The classes of headers (R73, R76, R78) -/

open Machine

/-- What a header of number n decodes to by R78, with the class of n. -/
inductive HeaderClass (n : Nat) : Except Cause Instr → Prop where
  | legal (h : legalHeader n) (i : Instr) : HeaderClass n (.ok i)
  | index (h : indexHeader n) : HeaderClass n (.error .E_INDEX)
  | length (h : lengthHeader n) : HeaderClass n (.error .E_BLOCKLEN)
  | illegal (hlegal : ¬legalHeader n) (hindex : ¬indexHeader n) (hlength : ¬lengthHeader n) :
      HeaderClass n (.error .E_ILLEGAL)

/-- The five commands without operand: ARG must be 0. -/
theorem headerClass_noOperand {n : Nat} (i : Instr) (hz : n / 256 % 16 = 0)
    (ho : n / 4096 = 1 ∨ n / 4096 = 4 ∨ n / 4096 = 5 ∨ n / 4096 = 8 ∨ n / 4096 = 9) :
    HeaderClass n (if n % 256 = 0 then .ok i else .error .E_ILLEGAL) := by
  split
  · exact .legal (by omega) i
  · exact .illegal (by omega) (by omega) (by omega)

theorem decodeR78_headerClass (hdr : Hdr) (p : List Byte) : HeaderClass hdr.toNat (decodeR78 hdr p) := by
  have hzero := zeroField_toNat hdr
  have hlt := hdr.isLt
  unfold decodeR78
  simp only [arg_toNat, opc_toNat]
  split
  · next hz =>
    have hz : hdr.toNat / 256 % 16 ≠ 0 := fun h => hz (BitVec.eq_of_toNat_eq (hzero.trans h))
    exact .illegal (by omega) (by omega) (by omega)
  next hz =>
  have hz : hdr.toNat / 256 % 16 = 0 := by rw [← hzero, not_not.1 hz]; rfl
  split
  · exact headerClass_noOperand .init hz (by omega)
  · exact .legal (by omega) (.write p)
  · split
    · exact .legal (by omega) (.absorb p)
    · exact .length (by omega)
  · exact headerClass_noOperand .finalize hz (by omega)
  · exact headerClass_noOperand .reset hz (by omega)
  · split
    · exact .legal (by omega) (.rdw (arg hdr))
    · exact .index (by omega)
  · split
    · exact .legal (by omega) (.rdb (arg hdr))
    · exact .index (by omega)
  · exact headerClass_noOperand .rdstat hz (by omega)
  · exact headerClass_noOperand .srcerr hz (by omega)
  · next h1 h2 h3 h4 h5 h6 h7 h8 h9 =>
    simp only [imp_false] at h1 h2 h3 h4 h5 h6 h7 h8 h9
    exact .illegal (by omega) (by omega) (by omega)

/-- Settles O16: the decoder by `HeaderClass`, and no number is in two classes. -/
theorem headerClassification : Obligations.HeaderClassification := by
  unfold Obligations.HeaderClassification
  intro hdr p
  have hclass := decodeR78_headerClass hdr p
  generalize hdr.toNat = n, decodeR78 hdr p = d at hclass ⊢
  cases hclass with
  | legal h i => exact ⟨fun _ => ⟨i, rfl⟩, fun _ => by omega, fun _ => by omega, fun hn => absurd h hn⟩
  | index h => exact ⟨fun _ => by omega, fun _ => rfl, fun _ => by omega, fun _ hn => absurd h hn⟩
  | length h => exact ⟨fun _ => by omega, fun _ => by omega, fun _ => rfl, fun _ _ hn => absurd h hn⟩
  | illegal hlegal hindex hlength =>
    exact ⟨fun h => absurd h hlegal, fun h => absurd h hindex, fun h => absurd h hlength, fun _ _ _ => rfl⟩

end Sys2Proof
end

section
/-! PROOF. Steps and the ports (30_encoding.md R80, R84, R85): one response for every command, what a step takes from the
channels, and the handshake. -/

namespace Sys2Proof.Machine

/-! ### The response of a command (R80) -/

theorem ExecCase.response {i : Instr} {s t : State} (h : ExecCase s i t) :
    ∃ r, t.rspOut = some r ∧ r.status.toNat ≤ 9 ∧ (r.status ≠ statusOK → r.data = 0) := by
  cases h with
  | initialise | status | word | byte | accepts => exact ⟨_, rfl, by simp [statusOK], absurd rfl⟩
  | faulted => exact ⟨_, rfl, by decide, fun _ => rfl⟩
  | faults i c _ _ =>
    refine ⟨_, rfl, ?_, fun _ => rfl⟩
    rw [statusOf_toNat]
    exact (code_range c).2.trans (by decide)

theorem exec_samePorts {i : Instr} {s t : State} (h : exec i s = .next t) : s.SamePorts t ∧ t.rspOut ≠ none := by
  obtain ⟨u, hu, hrstN, hcmdIn, hplIn, hcur, hready, hrsp⟩ := exec_ports i s
  obtain rfl : t = u := by rw [h] at hu; cases hu; rfl
  exact ⟨⟨hrstN.symm, hcmdIn.symm, hplIn.symm, hcur.symm, hready.symm⟩, hrsp⟩

/-- The response data is its four bytes, the first the most significant. -/
theorem data_toNat_eq_bytes (d : Word) : d.toNat =
    (byteOf d 0).toNat * 2 ^ 24 + (byteOf d 1).toNat * 2 ^ 16 + (byteOf d 2).toNat * 2 ^ 8 + (byteOf d 3).toNat := by
  rw [← toNat_be32, be32_byteOf]

/-- Settles O19: every case of exec has its response. -/
theorem everyCommandAnswers : Obligations.EveryCommandAnswers := by
  unfold Obligations.EveryCommandAnswers
  intro i s
  obtain ⟨t, ht, hcase⟩ := exec_cases i s
  obtain ⟨r, hr, hstatus, hdata⟩ := hcase.response
  exact ⟨t, r, ht, hr, hstatus, hdata, (exec_samePorts ht).1, _, _, _, _, rfl, data_toNat_eq_bytes r.data⟩

/-! ### The step on a whole command -/

theorem refuseHeader_samePorts (c : Cause) (hdr : Hdr) (s : State) :
    s.SamePorts (refuseHeader c hdr s) ∧ (refuseHeader c hdr s).rspOut ≠ none := by
  unfold refuseHeader
  split
  · exact ⟨⟨rfl, rfl, rfl, rfl, rfl⟩, by simp⟩
  · exact ⟨⟨rfl, rfl, rfl, rfl, rfl⟩, by simp⟩

/-- A command taken from the channels, legal or not, leaves the ports as they are and a response. -/
theorem step_of_command {s u : State} {hdr : Hdr} {p : List Byte} (h : fetch s = .command hdr p u) :
    ∃ t, step s = .next t ∧ u.SamePorts t ∧ t.rspOut ≠ none := by
  cases hd : decodeCommand hdr p with
  | ok i =>
    obtain ⟨t, ht, -⟩ := exec_cases i u
    exact ⟨t, (step_of_decoded h hd).trans ht, exec_samePorts ht⟩
  | error c => exact ⟨_, step_of_illegal h hd, refuseHeader_samePorts c hdr u⟩

/-- Settles O18: `fetch` takes the whole command, and `step` branches on its header. -/
theorem stepRunsDecodedCommand : Obligations.StepRunsDecodedCommand := by
  unfold Obligations.StepRunsDecodedCommand
  refine ⟨fun s i hdrs more hwf hr ho hc hi hp => ?decodes, fun s hdr hdrs p more c hr ho hc hi hp hl hd => ?illegal⟩
  case decodes =>
    exact step_of_decoded (fetch_whole s (headerOf i) hdrs (payloadOf i) more hr ho hc hi hp (plen_headerOf i hwf).symm)
      (decodeCommand_headerOf i)
  case illegal => exact step_of_illegal (fetch_whole s hdr hdrs p more hr ho hc hi hp hl) hd

/-- Settles O22: the command is taken whole, and its outcome leaves the ports. -/
theorem framingIsKept : Obligations.FramingIsKept := by
  unfold Obligations.FramingIsKept
  intro s hdr hdrs p more hr ho hc hi hp hl
  obtain ⟨t, ht, hports, hrsp⟩ := step_of_command (fetch_whole s hdr hdrs p more hr ho hc hi hp hl)
  exact ⟨t, ht, hports.cmdIn.symm, hports.plIn.symm, hports.cur.symm.trans hc, hrsp⟩

/-! ### What a step does to the ports -/

theorem takeResponse_of_none {s : State} (h : s.rspOut = none) : takeResponse s = s := by
  cases s; cases h; rfl

theorem fetch_held {s : State} (hr : s.rstN = true) (hrsp : s.rspOut ≠ none) (hready : s.rspReady = false) :
    fetch s = .wait s := by
  simp [fetch, hr, hready, Option.isSome_iff_ne_none, hrsp]

theorem fetch_idle {s : State} (hr : s.rstN = true) (ho : s.rspOut = none ∨ s.rspReady = true) (hcur : s.cur = none)
    (hcmd : s.cmdIn = []) : fetch s = .wait (takeResponse s) := by
  rcases ho with ho | ho <;> simp [fetch, hr, ho, hcur, hcmd]

/-- Settles O20: held or idle, `fetch` waits. -/
theorem engineWaitsForHost : Obligations.EngineWaitsForHost := by
  unfold Obligations.EngineWaitsForHost
  refine ⟨fun s hr hrsp hready => ?held, fun s hr _ hready hcur hcmd => ?taken, fun s hr hrsp hcur hcmd => ?idle⟩
  case held => exact step_of_wait (fetch_held hr hrsp hready)
  case taken => exact step_of_wait (fetch_idle hr (.inr hready) hcur hcmd)
  case idle =>
    rw [step_of_wait (fetch_idle hr (.inl hrsp) hcur hcmd), takeResponse_of_none hrsp]

/-- t is what a step leaves when it takes payload for a header of which the bytes `got` were there: all that is offered,
with the command still in progress, or exactly the rest of the payload, with a response. -/
def TakesPayload (hdr : Hdr) (got : List Byte) (s t : State) : Prop :=
  (t.plIn = [] ∧ t.cur ≠ none) ∨ (t.plIn = s.plIn.drop (plen hdr - got.length) ∧ t.rspOut ≠ none)

/-- Everything a step can do to the ports: reset, an untaken response, idle, payload for the command in progress, or the
next header with its payload. -/
inductive PortStep (s : State) : State → Prop where
  | reset (hr : s.rstN = false) : PortStep s (hardwareReset s)
  | held (hr : s.rstN = true) (hrsp : s.rspOut ≠ none) (hready : s.rspReady = false) : PortStep s s
  | idle (hr : s.rstN = true) (ho : s.rspOut = none ∨ s.rspReady = true) (hcur : s.cur = none) (hcmd : s.cmdIn = []) :
      PortStep s (takeResponse s)
  | payload {t : State} {c : InProgress} (hr : s.rstN = true) (ho : s.rspOut = none ∨ s.rspReady = true)
      (hcur : s.cur = some c) (hcmd : t.cmdIn = s.cmdIn) (htake : TakesPayload c.hdr c.got s t) : PortStep s t
  | header {t : State} {hdr : Hdr} (hr : s.rstN = true) (ho : s.rspOut = none ∨ s.rspReady = true) (hcur : s.cur = none)
      (hcmd : s.cmdIn = hdr :: t.cmdIn) (htake : TakesPayload hdr [] s t) : PortStep s t

theorem step_takesPayload {s u t : State} {hdr : Hdr} {got : List Byte} (hf : fetch s = takePayload hdr got u)
    (h : step s = .next t) : t.cmdIn = u.cmdIn ∧ TakesPayload hdr got u t := by
  rcases takePayload_cases hdr got u with ⟨-, he⟩ | ⟨-, he⟩
  · rw [step_of_wait (hf.trans he)] at h
    cases h
    exact ⟨rfl, .inl ⟨rfl, by simp⟩⟩
  · obtain ⟨t', ht', hports, hrsp⟩ := step_of_command (hf.trans he)
    obtain rfl : t = t' := by rw [h] at ht'; cases ht'; rfl
    exact ⟨hports.cmdIn.symm, .inr ⟨hports.plIn.symm, hrsp⟩⟩

theorem step_portStep {s t : State} (h : step s = .next t) : PortStep s t := by
  by_cases hheld : s.rstN = true ∧ s.rspOut ≠ none ∧ s.rspReady = false
  · obtain ⟨hr, hrsp, hready⟩ := hheld
    rw [step_of_wait (fetch_held hr hrsp hready)] at h
    cases h
    exact .held hr hrsp hready
  have ho : s.rstN = true → s.rspOut = none ∨ s.rspReady = true := by
    intro hr
    by_contra hno
    simp only [not_or, Bool.not_eq_true] at hno
    exact hheld ⟨hr, hno⟩
  rcases fetch_cases s with ⟨hr, hf⟩ | ⟨hr, hrsp, hready, -⟩ | ⟨hr, hcur, hcmd, hf⟩ | ⟨hr, c, hcur, hf⟩ |
    ⟨hr, hcur, hdr, rest, hcmd, hf⟩
  · rw [step_of_wait hf] at h
    cases h
    exact .reset hr
  · exact absurd ⟨hr, Option.isSome_iff_ne_none.1 hrsp, hready⟩ hheld
  · rw [step_of_wait hf] at h
    cases h
    exact .idle hr (ho hr) hcur hcmd
  · obtain ⟨hcmd, htake⟩ := step_takesPayload hf h
    exact .payload hr (ho hr) hcur hcmd htake
  · obtain ⟨hcmd', htake⟩ := step_takesPayload hf h
    exact .header hr (ho hr) hcur (hcmd'.symm ▸ hcmd) htake

/-! ### The handshake -/

theorem cmdReady_iff (s : State) : cmdReady s = true ↔ s.rstN = true ∧ s.cur = none ∧ s.rspOut = none := by
  simp [cmdReady, and_assoc]

theorem plReady_iff (s : State) : plReady s = true ↔ s.rstN = true ∧ s.cur ≠ none := by
  simp [plReady, Option.isSome_iff_ne_none]

theorem rspValid_iff (s : State) : rspValid s = true ↔ s.rstN = true ∧ s.rspOut ≠ none := by
  simp [rspValid, Option.isSome_iff_ne_none]

/-- Idle, taking payload, or offering a response: the invariant leaves one of the three. -/
theorem State.Inv.one_ready {s : State} (h : s.Inv) (hr : s.rstN = true) :
    (cmdReady s).toNat + (plReady s).toNat + (rspValid s).toNat = 1 := by
  cases hcur : s.cur with
  | none => cases hrsp : s.rspOut <;> simp [cmdReady, plReady, rspValid, hr, hcur, hrsp]
  | some c => simp [cmdReady, plReady, rspValid, hr, hcur, (h.inProgress c hcur).2]

section
variable {hdr : Hdr} {got : List Byte} {s t : State}

theorem TakesPayload.cmdReady (h : TakesPayload hdr got s t) : cmdReady t = false := by
  rw [← Bool.not_eq_true, cmdReady_iff]
  rintro ⟨-, hcur, hrsp⟩
  exact h.elim (fun h => h.2 hcur) fun h => h.2 hrsp

theorem TakesPayload.suffix (h : TakesPayload hdr got s t) : t.plIn <:+ s.plIn := by
  rcases h with ⟨h, -⟩ | ⟨h, -⟩ <;> rw [h]
  · exact List.nil_suffix
  · exact List.drop_suffix _ _

theorem TakesPayload.plIn_length_lt (h : TakesPayload hdr got s t) (hgot : got.length < plen hdr) (hne : s.plIn ≠ []) :
    t.plIn.length < s.plIn.length := by
  have hpos := List.length_pos_iff.2 hne
  rcases h with ⟨h, -⟩ | ⟨h, -⟩ <;> rw [h]
  · exact hpos
  · rw [List.length_drop]; omega

/-- A header is taken only by an engine that is idle, or becomes so by the transfer of its response. -/
theorem PortStep.header_taken (h : PortStep s t) :
    t.cmdIn = s.cmdIn ∨ ∃ hdr : Hdr, s.cmdIn = hdr :: t.cmdIn ∧ Machine.cmdReady t = false ∧
      (Machine.cmdReady s = true ∨
        (rspValid s = true ∧ s.rspReady = true ∧ Machine.cmdReady (takeResponse s) = true)) := by
  cases h with
  | reset | held | idle => exact .inl rfl
  | payload _ _ _ hcmd _ => exact .inl hcmd
  | header hr ho hcur hcmd htake =>
    refine .inr ⟨_, hcmd, htake.cmdReady, ?_⟩
    by_cases hrsp : s.rspOut = none
    · exact .inl ((cmdReady_iff s).2 ⟨hr, hcur, hrsp⟩)
    · exact .inr ⟨(rspValid_iff s).2 ⟨hr, hrsp⟩, ho.resolve_left hrsp, (cmdReady_iff _).2 ⟨hr, hcur, rfl⟩⟩

/-- cmd_ready rises only by the transfer of a response. -/
theorem PortStep.cmdReady_rises (h : PortStep s t) (hs : Machine.cmdReady s = false) (ht : Machine.cmdReady t = true) :
    rspValid s = true ∧ s.rspReady = true := by
  cases h with
  | reset hr => simp [Machine.cmdReady, hr] at ht
  | held => rw [hs] at ht; cases ht
  | idle hr ho hcur _ =>
    have hrsp : s.rspOut ≠ none := fun hrsp => by simp [(cmdReady_iff s).2 ⟨hr, hcur, hrsp⟩] at hs
    exact ⟨(rspValid_iff s).2 ⟨hr, hrsp⟩, ho.resolve_left hrsp⟩
  | payload _ _ _ _ htake | header _ _ _ _ htake => rw [htake.cmdReady] at ht; cases ht

theorem PortStep.payload_taken (h : PortStep s t) :
    t.plIn = s.plIn ∨ plReady s = true ∨ (s.rstN = true ∧ t.cmdIn ≠ s.cmdIn) := by
  cases h with
  | reset | held | idle => exact .inl rfl
  | payload hr _ hcur _ _ => exact .inr (.inl ((plReady_iff s).2 ⟨hr, by simp [hcur]⟩))
  | header hr _ _ hcmd _ => exact .inr (.inr ⟨hr, by simp [hcmd]⟩)

theorem PortStep.plIn_suffix (h : PortStep s t) : t.plIn <:+ s.plIn := by
  cases h with
  | reset | held | idle => exact List.suffix_rfl
  | payload _ _ _ _ htake | header _ _ _ _ htake => exact htake.suffix

/-- A header offered to a high cmd_ready is taken. -/
theorem PortStep.offered_header (h : PortStep s t) (hs : Machine.cmdReady s = true) : t.cmdIn = s.cmdIn.tail := by
  obtain ⟨hr, hcur, hrsp⟩ := (cmdReady_iff s).1 hs
  cases h with
  | reset hr' => simp [hr] at hr'
  | held _ hrsp' _ => exact absurd hrsp hrsp'
  | idle _ _ _ hcmd => simp [hcmd]
  | payload _ _ hcur' _ _ => simp [hcur] at hcur'
  | header _ _ _ hcmd _ => simp [hcmd]

/-- A payload byte offered to a high pl_ready is taken. -/
theorem PortStep.offered_payload (h : PortStep s t) (hinv : s.Inv) (hs : plReady s = true) (hne : s.plIn ≠ []) :
    t.plIn.length < s.plIn.length := by
  obtain ⟨hr, hcur⟩ := (plReady_iff s).1 hs
  obtain ⟨c, hc⟩ := Option.ne_none_iff_exists'.1 hcur
  obtain ⟨hgot, hrsp⟩ := hinv.inProgress c hc
  cases h with
  | reset hr' => simp [hr] at hr'
  | held _ hrsp' _ => exact absurd hrsp hrsp'
  | idle _ _ hcur' _ | header _ _ hcur' _ _ => exact absurd hcur' hcur
  | payload _ _ hc' _ htake =>
    obtain rfl := Option.some.inj (hc.symm.trans hc')
    exact htake.plIn_length_lt hgot hne

end

/-- Settles O60: the ready and valid outputs by their fields, the transfers by `PortStep`. -/
theorem portHandshake : Obligations.PortHandshake := by
  unfold Obligations.PortHandshake
  refine ⟨fun s => ⟨cmdReady_iff s, plReady_iff s, rspValid_iff s, State.Inv.one_ready⟩, fun s t hstep => ?_⟩
  have h := step_portStep hstep
  exact ⟨h.header_taken, h.cmdReady_rises, h.payload_taken, h.plIn_suffix, h.offered_header, h.offered_payload⟩

end Sys2Proof.Machine
end

section
/-! PROOF. Whole messages (30_encoding.md R83, 42_padding.md R131): FINALIZE gives the digest, and the commands of HASH
one after another. -/

namespace Sys2Proof.Machine

/-! ### The bytes of the padded message (R125) -/

theorem padded_length (M : List Byte) : (padded M).length = M.length + 1 + zeroCount M.length + 8 := by
  simp [padded, padding]; omega

theorem padding_getD_mark (L : Nat) : (padding L).getD 0 0 = 0x80#8 := rfl

theorem padding_getD_zero {L j : Nat} (h1 : 1 ≤ j) (h2 : j ≤ zeroCount L) : (padding L).getD j 0 = 0x00#8 := by
  rw [padding, List.getD_append _ _ _ _ (by simp; omega), List.getD_append_right _ _ _ _ h1]
  simp [List.getD, show j - 1 < zeroCount L by omega]

theorem padding_getD_length {L j : Nat} (h : j < 8) :
    (padding L).getD (1 + zeroCount L + j) 0 = (be64 (BitVec.ofNat 64 (8 * L)))[j] := by
  rw [padding, List.getD_append_right _ _ _ _ (by simp; omega)]
  simp [List.getD, Nat.add_comm 1, h]

theorem padded_getD_message {M : List Byte} {k : Nat} (h : k < M.length) : (padded M).getD k 0 = M.getD k 0 :=
  List.getD_append _ _ _ _ h

theorem padded_getD_padding {M : List Byte} {k : Nat} (h : M.length ≤ k) :
    (padded M).getD k 0 = (padding M.length).getD (k - M.length) 0 :=
  List.getD_append_right _ _ _ _ h

/-! ### FINALIZE gives the digest (R131, R134) -/

section
variable {M : List Byte} {s : State}

/-- Block 1 of padding is the block of the padded message in which the message ends. -/
theorem State.Absorbed.padBlockOne_eq (h : s.Absorbed M) : padBlockOne s = blockAt (padded M) (M.length / 64) := by
  have hz : zeroCount M.length = if M.length % 64 ≤ 55 then 55 - M.length % 64 else 119 - M.length % 64 := rfl
  refine Vector.ext fun k hk => ?_
  rw [blockAt_getElem _ _ _ hk]
  simp only [padBlockOne, Vector.getElem_ofFn, h.len]
  split
  · next hmsg => rw [h.tail ⟨k, hk⟩ hmsg, padded_getD_message (by omega)]
  next hmsg =>
  rw [padded_getD_padding (by omega)]
  split
  · next hmark => rw [show 64 * (M.length / 64) + k - M.length = 0 by omega, padding_getD_mark]
  split
  · next hmark hlen =>
    rw [if_pos hlen.2] at hz
    rw [← padding_getD_length (by omega)]
    congr 1
    omega
  · next hmark hlen => rw [padding_getD_zero (by omega) (by split at hz <;> omega)]

/-- When the length field has no room there, block 2 of padding is the next block, the last. -/
theorem State.Absorbed.padBlockTwo_eq (h : s.Absorbed M) (hr : 55 < M.length % 64) :
    padBlockTwo s = blockAt (padded M) (M.length / 64 + 1) := by
  have hz : zeroCount M.length = 119 - M.length % 64 := if_neg (by omega)
  refine Vector.ext fun k hk => ?_
  rw [blockAt_getElem _ _ _ hk, padded_getD_padding (by omega)]
  simp only [padBlockTwo, Vector.getElem_ofFn, h.len]
  split
  · next hlen =>
    rw [← padding_getD_length (by omega)]
    congr 1
    omega
  · next hlen => rw [padding_getD_zero (by omega) (by omega)]

/-- R131: FINALIZE leaves the digest of the message absorbed. -/
theorem State.Absorbed.padBlocks_H (h : s.Absorbed M) : (padBlocks s).H = digestOf M := by
  have hlen := padded_length M
  have hwhole : hashBlocks (padded M) (M.length / 64) = s.H := by
    rw [padded, hashBlocks_append _ _ _ (by omega), h.hash]
  have hfirst : hashBlocks (padded M) (M.length / 64 + 1) = compressFn s.H (padBlockOne s) := by
    rw [hashBlocks_succ, hwhole, h.padBlockOne_eq]
  rw [Machine.padBlocks_H, digestOf, h.len]
  by_cases hr : M.length % 64 ≤ 55
  · have hz : zeroCount M.length = 55 - M.length % 64 := if_pos hr
    rw [if_pos hr, show (padded M).length / 64 = M.length / 64 + 1 by omega, hfirst]
  · have hz : zeroCount M.length = 119 - M.length % 64 := if_neg hr
    rw [if_neg hr, show (padded M).length / 64 = M.length / 64 + 1 + 1 by omega, hashBlocks_succ, hfirst,
      h.padBlockTwo_eq (by omega)]

end

/-! ### Runs of commands -/

section
variable {s t u : State} {i : Instr} {is js : List Instr} {r : Response} {rs qs : List Response}

theorem runAll_cons (h : exec i s = .next t) (hr : t.rspOut = some r) (hrun : runAll is t = some (u, rs)) :
    runAll (i :: is) s = some (u, r :: rs) := by
  simp only [runAll, h, hr, hrun]

theorem runAll_append (h1 : runAll is s = some (t, rs)) (h2 : runAll js t = some (u, qs)) :
    runAll (is ++ js) s = some (u, rs ++ qs) := by
  induction is generalizing s rs with
  | nil => cases h1; exact h2
  | cons i is ih =>
    obtain ⟨s', hs', -⟩ := exec_cases i s
    simp only [runAll, hs'] at h1
    split at h1
    · next r u' rs' hr hrun =>
      cases h1
      exact runAll_cons hs' hr (ih hrun)
    · cases h1

/-- A run of commands all answered OK. -/
def RunsOK (is : List Instr) (s t : State) (rs : List Response) : Prop :=
  runAll is s = some (t, rs) ∧ allOK rs = true

theorem RunsOK.nil (s : State) : RunsOK [] s s [] := ⟨rfl, rfl⟩

theorem RunsOK.cons {d : Word} (h : exec i s = .next (respond statusOK d t)) (hrun : RunsOK is (respond statusOK d t) u rs) :
    RunsOK (i :: is) s u (⟨statusOK, d⟩ :: rs) :=
  ⟨runAll_cons h rfl hrun.1, by simpa [allOK] using hrun.2⟩

theorem RunsOK.append (h1 : RunsOK is s t rs) (h2 : RunsOK js t u qs) : RunsOK (is ++ js) s u (rs ++ qs) :=
  ⟨runAll_append h1.1 h2.1, by simpa [allOK] using And.intro h1.2 h2.2⟩

end

/-! ### HASH -/

/-- The engine takes message bytes, and those it has taken since the last initialise are M. -/
structure State.Ingesting (M : List Byte) (s : State) : Prop where
  absorbed : s.Absorbed M
  notFault : s.PHASE ≠ .fault
  notFinal : s.PHASE ≠ .finalized

theorem initialise_ingesting (s : State) : (initialise s).Ingesting [] where
  absorbed := (absorbed_iff_absorbedFrom [] _).2 ⟨rfl, rfl, by simp [hashFrom_zero], by simp⟩
  notFault := by simp
  notFinal := by simp

theorem State.Ingesting.respond {M : List Byte} {s : State} (h : s.Ingesting M) (st : BitVec 8) (d : Word) :
    (respond st d s).Ingesting M :=
  ⟨h.absorbed.of_eq rfl rfl rfl, h.notFault, h.notFinal⟩

/-- R111: a WRITE with room for its payload is accepted and appends it. -/
theorem State.Ingesting.write {M : List Byte} {s : State} (h : s.Ingesting M) (p : List Byte)
    (hlen : M.length + p.length ≤ 2 ^ 61 - 1) :
    ∃ t, exec (.write p) s = .next (Machine.respond statusOK 0 t) ∧ t.Ingesting (M ++ p) := by
  obtain ⟨habs, hf, hz⟩ := h
  have hacc := Accepts.write (s := s) p (by rw [habs.len]; exact hlen)
  obtain ⟨hcount, -⟩ := hacc.ingest_LENB rfl
  refine ⟨_, hacc.exec_eq hf hz, ?_, by simp, by simp⟩
  refine (absorbed_iff_absorbedFrom _ _).2 ⟨?_, hacc.ingest_absorbedFrom rfl ((absorbed_iff_absorbedFrom M s).1 habs).2⟩
  rw [hcount, habs.len, List.length_append]
  rfl

theorem State.Ingesting.writeChunks {M : List Byte} {s : State} (h : s.Ingesting M) (fuel : Nat) (p : List Byte)
    (hfuel : p.length ≤ fuel) (hlen : M.length + p.length ≤ 2 ^ 61 - 1) :
    ∃ t rs, RunsOK (writeChunks fuel p) s t rs ∧ t.Ingesting (M ++ p) := by
  induction fuel generalizing M s p with
  | zero =>
    obtain rfl : p = [] := List.eq_nil_of_length_eq_zero (by omega)
    exact ⟨s, [], .nil s, by simpa using h⟩
  | succ fuel ih =>
    rw [Machine.writeChunks]
    split
    · next hp =>
      obtain rfl : p = [] := List.isEmpty_iff.1 hp
      exact ⟨s, [], .nil s, by simpa using h⟩
    next hp =>
    have hpos : 0 < p.length := List.length_pos_iff.2 fun hnil => hp (List.isEmpty_iff.2 hnil)
    obtain ⟨t, ht, hing⟩ := h.write (p.take 255) (by rw [List.length_take]; omega)
    obtain ⟨u, rs, hrun, hing'⟩ := ih (hing.respond statusOK 0) (p.drop 255) (by rw [List.length_drop]; omega)
      (by rw [List.length_append, List.length_take, List.length_drop]; omega)
    exact ⟨u, _, hrun.cons ht, by simpa using hing'⟩

theorem State.Ingesting.writel {M : List Byte} {s : State} (h : s.Ingesting M) (p : List Byte)
    (hlen : M.length + p.length ≤ 2 ^ 61 - 1) : ∃ t rs, RunsOK (writel p) s t rs ∧ t.Ingesting (M ++ p) := by
  rw [Machine.writel]
  split
  · next hp =>
    obtain rfl : p = [] := List.isEmpty_iff.1 hp
    obtain ⟨t, ht, hing⟩ := h.write [] hlen
    exact ⟨_, _, (RunsOK.nil _).cons ht, hing.respond statusOK 0⟩
  · exact h.writeChunks p.length p le_rfl hlen

/-- R131: FINALIZE is accepted and leaves the digest. -/
theorem State.Ingesting.finalize {M : List Byte} {s : State} (h : s.Ingesting M) :
    ∃ t, exec .finalize s = .next (Machine.respond statusOK 0 t) ∧ t.PHASE = .finalized ∧ t.H = digestOf M := by
  have habs : State.Absorbed M { s with PHASE := .padding } := h.absorbed.of_eq rfl rfl rfl
  have hacc : Accepts s .finalize _ := .finalize
  exact ⟨_, hacc.exec_eq h.notFault h.notFinal, by simp only, by simp only [habs.padBlocks_H]⟩

/-- R172: RDWs in phase FINALIZED answer the words of H they name. -/
theorem runsOK_rdw {H : Vector Word 8} {s : State} (hp : s.PHASE = .finalized) (hH : s.H = H) (is : List (Fin 8)) :
    ∃ t, RunsOK (is.map fun i => .rdw (BitVec.ofNat 8 i.val)) s t (is.map fun i => ⟨statusOK, H[i.val]⟩) := by
  induction is generalizing s with
  | nil => exact ⟨s, .nil s⟩
  | cons i is ih =>
    obtain ⟨t, ht⟩ := ih (s := respond statusOK s.H[i.val] s) hp hH
    subst hH
    exact ⟨t, ht.cons (exec_rdw_ofNat hp i)⟩

theorem wordResponses_data (H : Vector Word 8) :
    ((List.finRange 8).map fun i => (⟨statusOK, H[i.val]⟩ : Response)).map Response.data = H.toList := by
  refine List.ext_getElem (by simp) fun k _ _ => ?_
  simp

theorem rddigest_eq : rddigest = (List.finRange 8).map fun i => .rdw (BitVec.ofNat 8 i.val) := by decide

/-- Settles O59: INIT, the WRITEs, FINALIZE and the eight RDWs, each from the state that the one before leaves. -/
theorem hashGivesDigestWords : Obligations.HashGivesDigestWords := by
  unfold Obligations.HashGivesDigestWords
  intro M s hlen
  have hinit : exec .init s = .next (respond statusOK 0 (initialise s)) := rfl
  obtain ⟨t, rs, hwrite, hing⟩ := ((initialise_ingesting s).respond statusOK 0).writel M (by simpa using hlen)
  obtain ⟨u, hfin, hp, hH⟩ := hing.finalize
  obtain ⟨w, hread⟩ := runsOK_rdw (s := respond statusOK 0 u) hp hH (List.finRange 8)
  rw [← rddigest_eq] at hread
  have hrun := (hwrite.append (hread.cons hfin)).cons hinit
  refine ⟨w, _, hrun.1, hrun.2, ?_⟩
  rw [List.append_cons, ← List.cons_append, List.drop_left' (by simp), wordResponses_data,
    List.nil_append]

end Sys2Proof.Machine
end

section
/-! PROOF. The lifecycle commands INIT, RESET and SRCERR (40_lifecycle.md R100 to R103), each from the case of `exec` it
falls under. -/

namespace Sys2Proof.Machine

/-- Settles O23: both commands fall under the case `initialise` of `exec` in every phase (R101, R102), and the next state
is R100's with the OK response. -/
theorem initAndResetInitialise : Obligations.InitAndResetInitialise := by
  unfold Obligations.InitAndResetInitialise
  intro s i hi
  have hexec : exec i s = .next (respond statusOK 0 (initialise s)) := (ExecCase.initialise i hi).exec_eq
  exact hexec

/-- Settles O24: R103's two branches, the fault E_SRCERR outside phase FAULT and the answer of a faulted engine in it. -/
theorem srcerrAlwaysFaults : Obligations.SrcerrAlwaysFaults := by
  unfold Obligations.SrcerrAlwaysFaults
  refine fun s => ⟨fun hp => ?raised, fun hp => ?faulted⟩
  case raised =>
    have hexec : exec .srcerr s = .next (raiseFault .E_SRCERR (headerOf .srcerr) s) := Faults.srcerr.exec_eq hp
    exact hexec
  case faulted =>
    have hexec : exec .srcerr s = .next (answerFaulted s) :=
      (ExecCase.faulted .srcerr hp (by decide) (by decide) (by decide)).exec_eq
    exact hexec

end Sys2Proof.Machine
end

section
/-! PROOF. WRITE and ABSORB (41_ingest.md R110 to R119): an accepted one appends its payload to the message absorbed, and
what each leaves in the registers. -/

namespace Sys2Proof.Machine

/-! ### The message absorbed (R110) -/

/-- R110: an accepted WRITE or ABSORB appends its payload to the message absorbed. -/
theorem Accepts.ingest_absorbed {i : Instr} {s u : State} {M : List Byte} (h : Accepts s i u) (hi : isIngest i = true)
    (hs : s.Absorbed M) : u.Absorbed (M ++ payloadOf i) := by
  obtain ⟨hcount, -⟩ := h.ingest_LENB hi
  obtain ⟨hlen, hfrom⟩ := (absorbed_iff_absorbedFrom M s).1 hs
  refine (absorbed_iff_absorbedFrom _ u).2 ⟨?_, h.ingest_absorbedFrom hi hfrom⟩
  rw [hcount, hlen, List.length_append]

/-- A WRITE or ABSORB whose response has status OK was accepted. -/
theorem exec_ingest_accepted {i : Instr} {s t : State} {r : Response} (h : exec i s = .next t) (hi : isIngest i = true)
    (hr : t.rspOut = some r) (hok : r.status = statusOK) : ∃ u, Accepts s i u ∧ t = respond statusOK 0 u := by
  cases exec_next h with
  | accepts i u _ _ ha => exact ⟨u, ha, rfl⟩
  | initialise i hinit => rcases hinit with rfl | rfl <;> cases hi
  | status | word | byte => cases hi
  | faulted => cases hr; exact absurd hok statusFaulted_ne_OK
  | faults i c _ _ => cases hr; exact absurd hok (statusOf_ne_OK c)

/-- Settles O32: a command answered OK was accepted, and an accepted WRITE or ABSORB appends its payload byte by byte or
as a block. -/
theorem ingestExtendsMessage : Obligations.IngestExtendsMessage := by
  unfold Obligations.IngestExtendsMessage
  intro M i s t hs hi hexec hrsp
  obtain ⟨u, hacc, rfl⟩ := exec_ingest_accepted hexec hi hrsp rfl
  exact (hacc.ingest_absorbed hi hs).of_eq rfl rfl rfl

theorem absorbed_nil {s : State} (hL : s.LENB = 0) (hH : s.H = IV) : s.Absorbed [] :=
  ⟨by rw [hL]; rfl, hH.trans (hashBlocks_zero []).symm, fun k hk => absurd hk (by simp)⟩

/-- Settles O31: LENB is 0 and H is IV in all three, and no byte is waiting. -/
theorem initialisedAbsorbedNothing : Obligations.InitialisedAbsorbedNothing :=
  ⟨absorbed_nil rfl rfl, fun s => ⟨absorbed_nil (hardwareReset_LENB s) (hardwareReset_H s),
    absorbed_nil (initialise_LENB s) (initialise_H s)⟩⟩

/-! ### An accepted WRITE (R111 to R116) -/

theorem exec_write_accepted {s : State} (p : List Byte) (hf : s.PHASE ≠ .fault) (hz : s.PHASE ≠ .finalized)
    (hle : s.LENB.toNat + p.length ≤ 2 ^ 61 - 1) :
    exec (.write p) s = .next (respond statusOK 0 (absorbBytes p { s with PHASE := .absorbing })) :=
  (Accepts.write p hle).exec_eq hf hz

/-- Settles O25: the laws of the payload loop, from the state with PHASE = ABSORBING. -/
theorem writeAcceptsAndFrame : Obligations.WriteAcceptsAndFrame := by
  unfold Obligations.WriteAcceptsAndFrame
  intro s p _ hf hz hle
  let s' : State := { s with PHASE := .absorbing }
  have hexec := exec_write_accepted p hf hz hle
  exact ⟨_, hexec, rfl, absorbBytes_PHASE p s', absorbBytes_LENB p s' hle, absorbBytes_ERR p s', absorbBytes_ERRHDR p s',
    (exec_samePorts hexec).1, absorbBytes_BUF_other p s' hle, absorbBytes_noBoundary p s' hle⟩

/-- The compression at a block boundary is of the BUF that absorb_byte leaves (R112). -/
theorem storeByte_BUF_eq_absorbByte (b : Byte) (s : State) : (storeByte b s).BUF = (absorbByte b s).BUF := by
  rw [absorbByte_eq]
  split
  · rfl
  · rfl

/-- Settles O26: the payload loop of one byte is one absorb_byte. -/
theorem writeOneByte : Obligations.WriteOneByte := by
  unfold Obligations.WriteOneByte
  intro s b hf hz hlt
  let s' : State := { s with PHASE := .absorbing }
  have hBUF (j : Fin 64) := absorbByte_BUF b s' j
  have hH : (absorbByte b s').H = if s.LENB.toNat % 64 = 63 then compressFn s.H (absorbByte b s').BUF else s.H := by
    rw [absorbByte_H, storeByte_BUF_eq_absorbByte]
    exact if_congr (by show (s.LENB.toNat + 1) % 64 = 0 ↔ _; omega) rfl rfl
  exact ⟨_, exec_write_accepted [b] hf hz (by simp; omega), rfl, absorbByte_LENB b s' hlt,
    (hBUF ⟨_, Nat.mod_lt _ (by decide)⟩).trans (if_pos rfl), fun j hj => (hBUF j).trans (if_neg hj), hH⟩

/-- The payload loop after a WRITE: in phase ABSORBING it does not see that WRITE's response. -/
theorem respond_absorbBytes_update (q : List Byte) (s : State) (h : s.PHASE = .absorbing) (r : Option Response)
    (st : BitVec 8) (d : Word) :
    respond st d (absorbBytes q { s with PHASE := .absorbing, rspOut := r }) = respond st d (absorbBytes q s) := by
  rw [absorbBytes_update]
  simp [respond, h]

/-- Settles O27: the loop over p ++ q is the loop over p and then over q, and neither reads PHASE or the response. -/
theorem writeSplits : Obligations.WriteSplits := by
  unfold Obligations.WriteSplits
  intro s p q hf hz hle
  let t : State := respond statusOK 0 (absorbBytes p { s with PHASE := .absorbing })
  have hPHASE : t.PHASE = .absorbing := absorbBytes_PHASE p _
  have hLENB : t.LENB.toNat = s.LENB.toNat + p.length := absorbBytes_LENB p _ (by show s.LENB.toNat + _ ≤ _; omega)
  have hq := exec_write_accepted (s := t) q (by simp [hPHASE]) (by simp [hPHASE]) (by omega)
  refine ⟨t, _, exec_write_accepted p hf hz (by omega), hq, ?_⟩
  rw [exec_write_accepted (p ++ q) hf hz (by rw [List.length_append]; omega), absorbBytes_append]
  exact congrArg _ (respond_absorbBytes_update q (absorbBytes p { s with PHASE := .absorbing }) hPHASE _ _ _).symm

/-- Settles O28: accepted in phases INIT and ABSORBING with an empty loop, the fault E_FINAL, the answer of a faulted
engine. -/
theorem zeroLengthWrite : Obligations.ZeroLengthWrite := by
  unfold Obligations.ZeroLengthWrite
  refine fun s => ⟨fun hp => ?accepted, fun hp => ?final, fun hp => ?faulted⟩
  case accepted =>
    have hlt := s.LENB.isLt
    have hne : s.PHASE ≠ .fault ∧ s.PHASE ≠ .finalized := by rcases hp with hp | hp <;> simp [hp]
    exact exec_write_accepted [] hne.1 hne.2 (by simp; omega)
  case final => exact (Faults.finalWrite [] hp).exec_eq (by simp [hp])
  case faulted => exact (ExecCase.faulted (.write []) hp (by decide) (by decide) (by decide)).exec_eq

/-! ### An accepted ABSORB (R114) -/

theorem payloadBlock_getElem (p : List Byte) (k : Fin 64) : (payloadBlock p)[k.val] = p.getD k.val 0 := by
  rw [payloadBlock, Vector.getElem_ofFn]

theorem absorbBlock_H (p : List Byte) (s : State) : (absorbBlock p s).H = compressFn s.H (payloadBlock p) := by
  rw [absorbBlock, compress_H]

/-- Settles O29: the body of ABSORB, from the state with PHASE = ABSORBING. -/
theorem absorbAcceptsAndFrame : Obligations.AbsorbAcceptsAndFrame := by
  unfold Obligations.AbsorbAcceptsAndFrame
  intro s p hl hf hz ha hle
  have hexec := (Accepts.absorb p hl ha hle).exec_eq hf hz
  exact ⟨_, hexec, rfl, rfl, add64_toNat s hle, payloadBlock_getElem p, by simp [absorbBlock_H], by simp, rfl, rfl,
    (exec_samePorts hexec).1⟩

/-- While no block is completed the payload loop writes BUF and LENB only. -/
theorem absorbBytes_eq_of_noBoundary (p : List Byte) (s : State) (h : s.LENB.toNat + p.length ≤ 2 ^ 61 - 1)
    (hb : s.LENB.toNat % 64 + p.length < 64) :
    absorbBytes p s = { s with BUF := (absorbBytes p s).BUF, LENB := (absorbBytes p s).LENB } := by
  obtain ⟨hH, hv, hW, hT, -⟩ := absorbBytes_noBoundary p s h hb
  have hframe := absorbBytes_frame p s
  generalize absorbBytes p s = u at *
  cases u
  simp_all

theorem payloadBlock_eq_blockAt (p : List Byte) : payloadBlock p = blockAt p 0 := by
  refine Vector.ext fun k hk => ?_
  rw [blockAt_getElem p 0 k hk, payloadBlock_getElem p ⟨k, hk⟩, Nat.mul_zero, Nat.zero_add]

/-- R124: on a block boundary the payload loop over 64 bytes is the body of ABSORB: its first 63 bytes complete no block,
and the last fills BUF with the payload and compresses it. -/
theorem absorbBytes_eq_absorbBlock (s : State) (p : List Byte) (hl : p.length = 64) (ha : s.LENB.toNat % 64 = 0)
    (hle : s.LENB.toNat + 64 ≤ 2 ^ 61 - 1) : absorbBytes p s = absorbBlock p s := by
  obtain ⟨q, b, rfl⟩ : ∃ q b, p = q ++ [b] := by
    simpa using List.eq_nil_or_concat p |>.resolve_left (by rintro rfl; simp at hl)
  have hq : q.length = 63 := by simpa using hl
  have hLENB : (absorbBytes q s).LENB.toNat = s.LENB.toNat + q.length := absorbBytes_LENB q s (by omega)
  have hnil : s.AbsorbedFrom s.H [] := ⟨ha, by simp [hashFrom_zero], by simp⟩
  have hBUF : (storeByte b (absorbBytes q s)).BUF = payloadBlock (q ++ [b]) := by
    rw [(hnil.absorbBytes q).storeByte_BUF_full b (by simp [hq]), payloadBlock_eq_blockAt]
    simp [hq]
  have hstored : storeByte b (absorbBytes q s) = { s with BUF := payloadBlock (q ++ [b]), LENB := s.LENB + 64 } := by
    have hcount : (absorbBytes q s).LENB + 1 = s.LENB + 64 := by bv_omega
    calc storeByte b (absorbBytes q s)
      _ = { absorbBytes q s with BUF := (storeByte b (absorbBytes q s)).BUF, LENB := (absorbBytes q s).LENB + 1 } := rfl
      _ = { absorbBytes q s with BUF := payloadBlock (q ++ [b]), LENB := s.LENB + 64 } := by rw [hBUF, hcount]
      _ = _ := by rw [absorbBytes_eq_of_noBoundary q s (by omega) (by omega)]
  rw [absorbBytes_append, absorbBytes_cons, absorbBytes_nil, absorbByte_eq, if_pos (by omega), hstored, absorbBlock]

/-- Settles O30: both are accepted, and the loop is the body of ABSORB. -/
theorem absorbEqualsWrite : Obligations.AbsorbEqualsWrite := by
  unfold Obligations.AbsorbEqualsWrite
  intro s p hl hf hz ha hle
  rw [(Accepts.absorb p hl ha hle).exec_eq hf hz, exec_write_accepted p hf hz (by omega),
    absorbBytes_eq_absorbBlock { s with PHASE := .absorbing } p hl ha hle]

end Sys2Proof.Machine
end

section
/-! PROOF. The segmentation law (41_ingest.md R124): a run of accepted WRITE and ABSORB commands leaves what its message
fixes, and two states whose visible registers agree answer every later run alike, whatever stands on their ports. -/

namespace Sys2Proof.Machine

/-! ### The ports -/

/-- s with the ports of r, the response among them. -/
def State.withPorts (s r : State) : State :=
  { s with rstN := r.rstN, cmdIn := r.cmdIn, plIn := r.plIn, cur := r.cur, rspOut := r.rspOut, rspReady := r.rspReady }

theorem compress_withPorts (s r : State) : compress (s.withPorts r) = (compress s).withPorts r := by
  simp only [State.withPorts, compress_eq_steps, compressSteps_eq]

theorem absorbByte_withPorts (b : Byte) (s r : State) : absorbByte b (s.withPorts r) = (absorbByte b s).withPorts r := by
  have hstore : storeByte b (s.withPorts r) = (storeByte b s).withPorts r := rfl
  rw [absorbByte_eq, absorbByte_eq, hstore, compress_withPorts]
  exact (apply_ite (State.withPorts · r) _ _ _).symm

theorem absorbBytes_withPorts (p : List Byte) (s r : State) :
    absorbBytes p (s.withPorts r) = (absorbBytes p s).withPorts r := by
  induction p generalizing s with
  | nil => rfl
  | cons b p ih => rw [absorbBytes_cons, absorbBytes_cons, absorbByte_withPorts, ih]

theorem padSpill_withPorts (s r : State) : padSpill (s.withPorts r) = (padSpill s).withPorts r := by
  rw [padSpill, padSpill, compress_withPorts]
  rfl

theorem padBlocks_withPorts (s r : State) : padBlocks (s.withPorts r) = (padBlocks s).withPorts r := by
  have hpad (u : State) : compress (padLen (u.withPorts r)) = (compress (padLen u)).withPorts r :=
    compress_withPorts (padLen u) r
  rw [padBlocks_eq, padBlocks_eq, ← hpad, apply_ite (State.withPorts · r), ← padSpill_withPorts]
  rfl

/-- The tests of exec read PHASE, LENB and the operand only. -/
theorem Faults.withPorts {i : Instr} {c : Cause} {s : State} (h : Faults s i c) (r : State) :
    Faults (s.withPorts r) i c := by
  cases h with
  | srcerr => exact .srcerr
  | finalFinalize h => exact .finalFinalize h
  | finalWrite p h => exact .finalWrite p h
  | overWrite p h ho => exact .overWrite p h ho
  | length p h => exact .length p h
  | finalAbsorb p hl h => exact .finalAbsorb p hl h
  | align p hl h ha => exact .align p hl h ha
  | overAbsorb p hl h ha ho => exact .overAbsorb p hl h ha ho
  | indexWord x h => exact .indexWord x h
  | earlyWord x h hz => exact .earlyWord x h hz
  | indexByte x h => exact .indexByte x h
  | earlyByte x h hz => exact .earlyByte x h hz

theorem Accepts.withPorts {i : Instr} {s u : State} (h : Accepts s i u) (r : State) :
    Accepts (s.withPorts r) i (u.withPorts r) := by
  cases h with
  | write p h =>
    rw [← absorbBytes_withPorts]
    exact .write p h
  | absorb p hl ha h =>
    have hblock (v : State) : (absorbBlock p v).withPorts r = absorbBlock p (v.withPorts r) :=
      (compress_withPorts { v with BUF := payloadBlock p, LENB := v.LENB + 64 } r).symm
    rw [hblock]
    exact .absorb p hl ha h
  | finalize =>
    have hpad := padBlocks_withPorts { s with PHASE := .padding } r
    have hacc : Accepts (s.withPorts r) .finalize
      { padBlocks (State.withPorts { s with PHASE := .padding } r) with PHASE := .finalized } := .finalize
    rwa [hpad] at hacc

/-- exec reads no port, and writes none but the response. -/
theorem ExecCase.withPorts {i : Instr} {s t : State} (h : ExecCase s i t) (r : State) :
    ExecCase (s.withPorts r) i (t.withPorts { r with rspOut := t.rspOut }) := by
  cases h with
  | initialise i h => exact .initialise i h
  | status => exact .status
  | faulted i hp h1 h2 h3 => exact .faulted i hp h1 h2 h3
  | faults i c hp h => exact .faults i c hp (h.withPorts r)
  | word x hp h => exact .word (s := s.withPorts r) x hp h
  | byte x hp h => exact .byte (s := s.withPorts r) x hp h
  | accepts i u h1 h2 h => exact ExecCase.accepts (s := s.withPorts r) i _ h1 h2 (h.withPorts r)

/-! ### Later responses -/

/-- s and t agree on the registers that a response can depend on; their ports are free. -/
def State.SameRegisters (s t : State) : Prop := s.SameVisible (t.withPorts s)

theorem exec_of_sameRegisters {s t : State} (h : s.SameRegisters t) (i : Instr) :
    ∃ u w, exec i s = .next u ∧ exec i t = .next w ∧ u.rspOut = w.rspOut ∧ u.SameRegisters w := by
  obtain ⟨u, v, hu, hv, hvis⟩ := exec_of_sameVisible h i
  obtain ⟨w, hw, hcase⟩ := exec_cases i t
  obtain rfl : v = w.withPorts { s with rspOut := w.rspOut } := by
    rw [(hcase.withPorts s).exec_eq] at hv
    cases hv
    rfl
  exact ⟨u, w, hu, hw, hvis.rspOut,
    ⟨hvis.H, hvis.LENB, hvis.PHASE, hvis.ERR, hvis.ERRHDR, hvis.waiting, rfl, rfl, rfl, rfl, rfl, rfl⟩⟩

theorem runAll_of_sameRegisters (is : List Instr) {s t : State} (h : s.SameRegisters t) :
    ∃ u w rs, runAll is s = some (u, rs) ∧ runAll is t = some (w, rs) := by
  induction is generalizing s t with
  | nil => exact ⟨s, t, [], rfl, rfl⟩
  | cons i is ih =>
    obtain ⟨s', t', hs, ht, hrsp, hreg⟩ := exec_of_sameRegisters h i
    obtain ⟨r, hr⟩ := Option.ne_none_iff_exists'.1 (exec_samePorts hs).2
    obtain ⟨u, w, rs, hu, hw⟩ := ih hreg
    exact ⟨u, w, r :: rs, runAll_cons hs hr hu, runAll_cons ht (hrsp ▸ hr) hw⟩

/-! ### Runs of WRITE and ABSORB -/

/-- The message absorbed fixes LENB, H and the waiting bytes. -/
theorem State.Absorbed.unique {M : List Byte} {s t : State} (hs : s.Absorbed M) (ht : t.Absorbed M) :
    s.LENB = t.LENB ∧ s.H = t.H ∧ ∀ k : Fin 64, k.val < s.LENB.toNat % 64 → s.BUF[k.val] = t.BUF[k.val] := by
  refine ⟨BitVec.eq_of_toNat_eq (hs.len.trans ht.len.symm), hs.hash.trans ht.hash.symm, fun k hk => ?_⟩
  rw [hs.len] at hk
  rw [hs.tail k hk, ht.tail k hk]

theorem Accepts.ingest_frame {i : Instr} {s u : State} (h : Accepts s i u) (hi : isIngest i = true) :
    u.PHASE = .absorbing ∧ u.ERR = s.ERR ∧ u.ERRHDR = s.ERRHDR := by
  cases h with
  | write p _ => simp
  | absorb p _ _ _ => simp
  | finalize => cases hi

section
variable {i : Instr} {is : List Instr} {s t : State} {rs : List Response}

/-- The inversion of a run: the first command, its response, and the rest of the run. -/
theorem runAll_cons_inv (h : runAll (i :: is) s = some (t, rs)) :
    ∃ u r qs, exec i s = .next u ∧ u.rspOut = some r ∧ runAll is u = some (t, qs) ∧ rs = r :: qs := by
  obtain ⟨u, hu, -⟩ := exec_cases i s
  simp only [runAll, hu] at h
  split at h
  · next r t' qs hr hrun =>
    cases h
    exact ⟨u, r, qs, hu, hr, hrun, rfl⟩
  · cases h

/-- R110, R115, R116: a run of accepted WRITE and ABSORB commands appends its message, raises nothing, and enters
ABSORBING if there is a command at all. -/
theorem runAll_ingest {M : List Byte} (hi : ∀ i ∈ is, isIngest i = true) (hs : s.Absorbed M)
    (hrun : runAll is s = some (t, rs)) (hok : allOK rs = true) :
    t.Absorbed (M ++ messageOf is) ∧ t.ERR = s.ERR ∧ t.ERRHDR = s.ERRHDR ∧
      t.PHASE = if is = [] then s.PHASE else .absorbing := by
  induction is generalizing M s rs with
  | nil =>
    cases hrun
    exact ⟨by simpa [messageOf] using hs, rfl, rfl, rfl⟩
  | cons i is ih =>
    obtain ⟨hi, his⟩ := List.forall_mem_cons.1 hi
    obtain ⟨u, r, qs, hexec, hr, hrest, rfl⟩ := runAll_cons_inv hrun
    obtain ⟨hrok, hqok⟩ : r.status = statusOK ∧ allOK qs = true := by simpa [allOK] using hok
    obtain ⟨v, hacc, rfl⟩ := exec_ingest_accepted hexec hi hr hrok
    obtain ⟨hPHASE, hERR, hERRHDR⟩ := hacc.ingest_frame hi
    have hv : (respond statusOK 0 v).Absorbed (M ++ payloadOf i) := (hacc.ingest_absorbed hi hs).of_eq rfl rfl rfl
    obtain ⟨habs, hERR', hERRHDR', hPHASE'⟩ := ih his hv hrest hqok
    refine ⟨by simpa [messageOf] using habs, hERR'.trans hERR, hERRHDR'.trans hERRHDR, ?_⟩
    simpa [hPHASE] using hPHASE'

end

/-- Settles O33: both runs absorb the one message from initialised states, so their visible registers agree but for the
PHASE of an empty run. -/
theorem segmentationLaw : Obligations.SegmentationLaw := by
  unfold Obligations.SegmentationLaw
  intro is js s s' t u rs us his hjs hmsg hrs hrok hus huok
  obtain ⟨ht, htERR, htERRHDR, htPHASE⟩ := runAll_ingest his (absorbed_nil rfl rfl) hrs hrok
  obtain ⟨hu, huERR, huERRHDR, huPHASE⟩ := runAll_ingest hjs (absorbed_nil rfl rfl) hus huok
  obtain ⟨hLENB, hH, hwaiting⟩ := ht.unique (hmsg ▸ hu)
  have hERR : t.ERR = u.ERR := htERR.trans huERR.symm
  have hERRHDR : t.ERRHDR = u.ERRHDR := htERRHDR.trans huERRHDR.symm
  refine ⟨hLENB, hH, hwaiting, hERR, hERRHDR, fun hempty => ?_⟩
  have hPHASE : t.PHASE = u.PHASE := by
    rw [htPHASE, huPHASE]
    exact if_congr hempty rfl rfl
  exact ⟨hPHASE, fun later => runAll_of_sameRegisters later
    ⟨hH, hLENB, hPHASE, hERR, hERRHDR, hwaiting, rfl, rfl, rfl, rfl, rfl, rfl⟩⟩

end Sys2Proof.Machine
end

section
/-! PROOF. Padding and FINALIZE (42_padding.md R125 to R134): the length of the padding, the length field in BUF and in the
schedule, and what an accepted FINALIZE leaves. -/

namespace Sys2Proof.Machine

/-! ### The length of the padding (R125, R126) -/

theorem padding_length (L : Nat) : (padding L).length = 1 + zeroCount L + 8 := by
  simp [padding]
  omega

theorem zeroCount_lt (L : Nat) : zeroCount L < 64 := by
  rw [zeroCount]
  split <;> omega

/-- R126: remainder and padding together are one block when the mark and the length field have room, else two. -/
theorem mod_add_padding_length (L : Nat) : L % 64 + (padding L).length = if L % 64 ≤ 55 then 64 else 128 := by
  rw [padding_length, zeroCount]
  split <;> omega

/-- R125: the message, the mark and the zeros end 8 bytes before the end of a block. -/
theorem add_zeroCount_mod (L : Nat) : (L + 1 + zeroCount L) % 64 = 56 := by
  have hlen := padding_length L
  have hfill := mod_add_padding_length L
  split at hfill <;> omega

theorem add_mod_ne_of_lt_zeroCount {L z : Nat} (hz : z < zeroCount L) : (L + 1 + z) % 64 ≠ 56 := by
  have hmod := add_zeroCount_mod L
  have hlt := zeroCount_lt L
  omega

theorem length_add_padding_div (L : Nat) :
    (L + (padding L).length) / 64 = L / 64 + if L % 64 ≤ 55 then 1 else 2 := by
  have hfill := mod_add_padding_length L
  split at hfill
  · next hr => rw [if_pos hr]; omega
  · next hr => rw [if_neg hr]; omega

/-- Settles O34: z by its closed form, the block counts from remainder and padding being 64 or 128 bytes. -/
theorem paddingLength : Obligations.PaddingLength := by
  unfold Obligations.PaddingLength
  intro L
  have hwhole : (L + (padding L).length) % 64 = 0 := by
    rw [padding_length]
    have hmod := add_zeroCount_mod L
    omega
  exact ⟨add_zeroCount_mod L, fun _ => add_mod_ne_of_lt_zeroCount, padding_length L, hwhole, mod_add_padding_length L,
    length_add_padding_div L⟩

/-! ### The length field (R129) -/

theorem toNat_bitlen (s : State) : (bitlen s).toNat = 8 * s.LENB.toNat := by
  rw [bitlen, toNat_append_eq]
  simp only [BitVec.toNat_ofNat]
  omega

theorem bitlen_low (s : State) : (bitlen s).extractLsb' 0 3 = 0#3 := BitVec.extractLsb'_append_eq_right

theorem bitlen_high (s : State) : (bitlen s).extractLsb' 3 61 = s.LENB := BitVec.extractLsb'_append_eq_left

theorem withLength_getElem_of_lt (x : BitVec 64) (B : Vector Byte 64) (k : Fin 56) :
    (withLength x B)[k.val] = B[k.val] := by
  rw [withLength, Vector.getElem_ofFn, dif_neg (Nat.not_le.2 k.isLt)]

theorem withLength_getElem_add (x : BitVec 64) (B : Vector Byte 64) (k : Fin 8) :
    (withLength x B)[56 + k.val] = (be64 x)[k.val] := by
  simp [withLength]

/-- R14, R52: the first four bytes of `be64` are its high word. -/
theorem be32_be64_high (x : BitVec 64) : be32 (be64 x)[0] (be64 x)[1] (be64 x)[2] (be64 x)[3] = x.extractLsb' 32 32 := by
  apply BitVec.eq_of_toNat_eq
  simp only [toNat_be32, toNat_getElem_be64, BitVec.extractLsb'_toNat, Nat.shiftRight_eq_div_pow]
  omega

theorem be32_be64_low (x : BitVec 64) : be32 (be64 x)[4] (be64 x)[5] (be64 x)[6] (be64 x)[7] = x.extractLsb' 0 32 := by
  apply BitVec.eq_of_toNat_eq
  simp only [toNat_be32, toNat_getElem_be64, BitVec.extractLsb'_toNat, Nat.shiftRight_eq_div_pow]
  omega

theorem schedule_W_of_lt (s : State) (t : Fin 16) : (schedule s).W[t.val] = memRead t s := by
  rw [schedule_frame, scheduleW_getElem_of_lt, blockWords, Vector.getElem_ofFn]
  rfl

/-- The words of the length field in BUF, as SCHED_LOAD reads them (R143). -/
theorem memRead_padLen (s : State) (i : Fin 2) :
    memRead ⟨14 + i.val, by omega⟩ (padLen s) =
      be32 (be64 (bitlen s))[4 * i.val] (be64 (bitlen s))[4 * i.val + 1] (be64 (bitlen s))[4 * i.val + 2]
        (be64 (bitlen s))[4 * i.val + 3] := by
  have hbyte (k : Nat) (hk : k < 8) : (padLen s).BUF[56 + k] = (be64 (bitlen s))[k] := by
    rw [← withLength_getElem_add _ s.BUF ⟨k, hk⟩]
    simp only [padLen_BUF]
  rw [← hbyte, ← hbyte, ← hbyte, ← hbyte]
  simp only [memRead, Nat.mul_add, Nat.add_assoc]

theorem schedule_padLen_W_14 (s : State) : (schedule (padLen s)).W[14] = (bitlen s).extractLsb' 32 32 := by
  rw [← be32_be64_high]
  exact (schedule_W_of_lt (padLen s) ⟨14, by omega⟩).trans (memRead_padLen s ⟨0, by omega⟩)

theorem schedule_padLen_W_15 (s : State) : (schedule (padLen s)).W[15] = (bitlen s).extractLsb' 0 32 := by
  rw [← be32_be64_low]
  exact (schedule_W_of_lt (padLen s) ⟨15, by omega⟩).trans (memRead_padLen s ⟨1, by omega⟩)

/-- Settles O35: bitlen by its two parts, BUF[56..63] by `be64`, and the two words that SCHED_LOAD reads there. -/
theorem lengthField : Obligations.LengthField := by
  unfold Obligations.LengthField
  intro s
  refine ⟨toNat_bitlen s, bitlen_low s, bitlen_high s, ⟨withLength (bitlen s) s.BUF, rfl, withLength_getElem_of_lt _ _, ?_⟩,
    schedule_padLen_W_14 s, schedule_padLen_W_15 s⟩
  intro k
  rw [withLength_getElem_add, toNat_getElem_be64 _ _ k.isLt, toNat_bitlen]

/-! ### FINALIZE (R127, R131 to R134) -/

theorem exec_finalize_accepted {s : State} (hf : s.PHASE ≠ .fault) (hz : s.PHASE ≠ .finalized) :
    ∃ u, Accepts s .finalize u ∧ exec .finalize s = .next (respond statusOK 0 u) :=
  ⟨_, .finalize, Accepts.finalize.exec_eq hf hz⟩

section
variable {s u : State}

/-- R133: what an accepted FINALIZE leaves in PHASE, LENB, ERR, ERRHDR and T. -/
theorem Accepts.finalize_frame (h : Accepts s .finalize u) :
    u.PHASE = .finalized ∧ u.LENB = s.LENB ∧ u.ERR = s.ERR ∧ u.ERRHDR = s.ERRHDR ∧ u.T = 64#7 := by
  cases h
  simp

/-- R127: an accepted FINALIZE leaves its last padded block in BUF. -/
theorem Accepts.finalize_BUF (h : Accepts s .finalize u) :
    u.BUF = if s.LENB.toNat % 64 ≤ 55 then padBlockOne s else padBlockTwo s := by
  cases h
  simpa only [padBlockOne, padBlockTwo] using padBlocks_BUF { s with PHASE := .padding }

/-- R131: an accepted FINALIZE leaves the digest of the message absorbed. -/
theorem Accepts.finalize_digest {M : List Byte} (h : Accepts s .finalize u) (hs : s.Absorbed M) : u.H = digestOf M := by
  have hpad : State.Absorbed M { s with PHASE := .padding } := hs.of_eq rfl rfl rfl
  cases h
  simp only [hpad.padBlocks_H]

end

/-- Settles O36: the frame of an accepted FINALIZE, and BUF and H by the number of padded blocks. -/
theorem finalizeCompressesPaddedBlocks : Obligations.FinalizeCompressesPaddedBlocks := by
  unfold Obligations.FinalizeCompressesPaddedBlocks
  intro s hf hz
  obtain ⟨u, hacc, hexec⟩ := exec_finalize_accepted hf hz
  obtain ⟨hPHASE, hLENB, hERR, hERRHDR, hT⟩ := hacc.finalize_frame
  refine ⟨respond statusOK 0 u, hexec, rfl, hPHASE, hLENB, hERR, hERRHDR, hT, (exec_samePorts hexec).1,
    fun hone => ?one, fun htwo => ?two⟩
  case one => exact ⟨hacc.finalize_BUF.trans (if_pos hone), hacc.finalize_H.trans (if_pos hone)⟩
  case two =>
    have hmany : ¬ s.LENB.toNat % 64 ≤ 55 := by omega
    exact ⟨hacc.finalize_BUF.trans (if_neg hmany), hacc.finalize_H.trans (if_neg hmany)⟩

/-- Settles O37: H is the digest of the message absorbed, and the frame keeps LENB at its length. -/
theorem finalizeGivesDigest : Obligations.FinalizeGivesDigest := by
  unfold Obligations.FinalizeGivesDigest
  intro M s habs hf hz
  obtain ⟨u, hacc, hexec⟩ := exec_finalize_accepted hf hz
  obtain ⟨hPHASE, hLENB, -⟩ := hacc.finalize_frame
  have hlen : u.LENB.toNat = M.length := by rw [hLENB, habs.len]
  exact ⟨respond statusOK 0 u, hexec, rfl, hPHASE, hacc.finalize_digest habs, hlen⟩

end Sys2Proof.Machine
end

section
/-! PROOF. The message schedule (43_schedule.md R141 to R145), with bsig0 and bsig1 of 44_compression.md: the sigma functions
bit by bit, and what each schedule step and the whole schedule write. -/

namespace Sys2Proof.Machine

/-! ### The sigma functions (R141, R142, R151, R153) -/

/-- R14 shr: bit i comes from bit i + n; a zero enters where there is no such bit. -/
theorem getLsbD_shr (x : Word) (n i : Nat) :
    (shr x n).getLsbD i = (decide (i + n < 32) && x.getLsbD (i + n)) := by
  rw [shr, BitVec.getLsbD_ushiftRight, Nat.add_comm n i]
  by_cases hin : i + n < 32
  · simp [hin]
  · have hout : x.getLsbD (i + n) = false := BitVec.getLsbD_of_ge x (i + n) (by omega)
    simp [hin, hout]

theorem getLsbD_rotr_xor_rotr {a b : Nat} (x y : Word) {i : Nat} (ha : a < 32) (hb : b < 32) (hi : i < 32) :
    (rotr x a ^^^ rotr x b ^^^ y).getLsbD i = (x.getLsbD ((i + a) % 32) ^^ x.getLsbD ((i + b) % 32) ^^ y.getLsbD i) := by
  rw [BitVec.getLsbD_xor, BitVec.getLsbD_xor, getLsbD_rotr x ha hi, getLsbD_rotr x hb hi]

section
variable (x : Word) {i : Nat} (hi : i < 32)
include hi

theorem getLsbD_ssig0 : (ssig0 x).getLsbD i =
    (x.getLsbD ((i + 7) % 32) ^^ x.getLsbD ((i + 18) % 32) ^^ (decide (i + 3 < 32) && x.getLsbD (i + 3))) := by
  rw [ssig0, getLsbD_rotr_xor_rotr x _ (by omega) (by omega) hi, getLsbD_shr]

theorem getLsbD_ssig1 : (ssig1 x).getLsbD i =
    (x.getLsbD ((i + 17) % 32) ^^ x.getLsbD ((i + 19) % 32) ^^ (decide (i + 10 < 32) && x.getLsbD (i + 10))) := by
  rw [ssig1, getLsbD_rotr_xor_rotr x _ (by omega) (by omega) hi, getLsbD_shr]

theorem getLsbD_bsig0 : (bsig0 x).getLsbD i =
    (x.getLsbD ((i + 2) % 32) ^^ x.getLsbD ((i + 13) % 32) ^^ x.getLsbD ((i + 22) % 32)) := by
  rw [bsig0, getLsbD_rotr_xor_rotr x _ (by omega) (by omega) hi, getLsbD_rotr x (by omega) hi]

theorem getLsbD_bsig1 : (bsig1 x).getLsbD i =
    (x.getLsbD ((i + 6) % 32) ^^ x.getLsbD ((i + 11) % 32) ^^ x.getLsbD ((i + 25) % 32)) := by
  rw [bsig1, getLsbD_rotr_xor_rotr x _ (by omega) (by omega) hi, getLsbD_rotr x (by omega) hi]

end

/-- Settles O38: each function's bits from those of its rotations and shifts; the corner values are computed. -/
theorem sigmaFunctionsBitwise : Obligations.SigmaFunctionsBitwise := by
  unfold Obligations.SigmaFunctionsBitwise
  refine ⟨fun x i hi => ?bits, ?corners⟩
  case bits => exact ⟨getLsbD_ssig0 x hi, getLsbD_ssig1 x hi, getLsbD_bsig0 x hi, getLsbD_bsig1 x hi⟩
  case corners => decide

/-! ### The schedule (R143 to R145) -/

/-- R144 with t counted from 16: the words read are those of the window that starts at t - 16. -/
theorem schedExp_add_16 (t : Fin 48) (s : State) : schedExp ⟨t.val + 16, by omega⟩ s =
    { s with W := s.W.set (t.val + 16) (s.W[t.val] + ssig0 s.W[t.val + 1] + s.W[t.val + 9] + ssig1 s.W[t.val + 14]) } := by
  simp [schedExp]

/-- Settles O41: each step by its rule, and the schedule by `scheduleW`, whose words are those of the block and then those
of the recurrence. -/
theorem scheduleWords : Obligations.ScheduleWords := by
  unfold Obligations.ScheduleWords
  refine ⟨fun t s => ?load, schedExp_add_16, fun s => ?whole⟩
  case load => rfl
  case whole =>
    have hload (t : Fin 16) : (scheduleW s.BUF s.W)[t.val] = memRead t s := by
      rw [← schedule_W_of_lt s t, schedule_frame]
    exact ⟨scheduleW s.BUF s.W, schedule_frame s, hload, scheduleW_getElem_add_16 s.BUF s.W⟩

end Sys2Proof.Machine
end

section
/-! PROOF. The compression function (44_compression.md R152, R154 to R163): ch and maj bit by bit, what LOADV, ROUND and
FEEDFWD write, what the rounds keep, and `compress` as a function of H and BUF. -/

namespace Sys2Proof.Machine

/-! ### ch and maj (R152, R154, R163) -/

theorem getLsbD_ch (x y z : Word) (i : Nat) :
    (ch x y z).getLsbD i = if x.getLsbD i then y.getLsbD i else z.getLsbD i := by
  by_cases hi : i < 32
  · simp only [ch, BitVec.getLsbD_xor, BitVec.getLsbD_and, BitVec.getLsbD_not, decide_eq_true hi]
    cases x.getLsbD i <;> simp
  · have hout (w : Word) : w.getLsbD i = false := BitVec.getLsbD_of_ge w i (by omega)
    simp [hout]

theorem getLsbD_maj (x y z : Word) (i : Nat) :
    (maj x y z).getLsbD i = Bool.atLeastTwo (x.getLsbD i) (y.getLsbD i) (z.getLsbD i) := by
  simp only [maj, BitVec.getLsbD_xor, BitVec.getLsbD_and]
  cases x.getLsbD i <;> cases y.getLsbD i <;> cases z.getLsbD i <;> rfl

theorem getLsbD_all_ones {i : Nat} (hi : i < 32) : (0xFFFFFFFF#32).getLsbD i = true := by
  have hones : 0xFFFFFFFF#32 = BitVec.allOnes 32 := by decide
  rw [hones, BitVec.getLsbD_allOnes, decide_eq_true hi]

/-- The majority does not depend on the order of its arguments. -/
theorem maj_swap_first (x y z : Word) : maj x y z = maj y x z := by
  rw [maj, maj, BitVec.and_comm x y, BitVec.xor_assoc, BitVec.xor_assoc, BitVec.xor_comm (x &&& z)]

theorem maj_swap_last (x y z : Word) : maj x y z = maj x z y := by
  rw [maj, maj, BitVec.xor_comm (x &&& y), BitVec.and_comm y z]

theorem ch_same (x y : Word) : ch x y y = y :=
  BitVec.eq_of_getLsbD_eq fun i _ => by rw [getLsbD_ch, ite_self]

theorem ch_zero (y z : Word) : ch 0 y z = z :=
  BitVec.eq_of_getLsbD_eq fun i _ => by simp [getLsbD_ch]

theorem ch_all_ones (y z : Word) : ch 0xFFFFFFFF#32 y z = y :=
  BitVec.eq_of_getLsbD_eq fun i hi => by rw [getLsbD_ch, getLsbD_all_ones hi, if_pos rfl]

theorem maj_same (x z : Word) : maj x x z = x := by
  rw [maj, BitVec.and_self, BitVec.xor_assoc, BitVec.xor_self, BitVec.xor_zero]

theorem maj_zero (y z : Word) : maj 0 y z = y &&& z :=
  BitVec.eq_of_getLsbD_eq fun i _ => by
    simp [getLsbD_maj]

theorem maj_all_ones (y z : Word) : maj 0xFFFFFFFF#32 y z = y ||| z :=
  BitVec.eq_of_getLsbD_eq fun i hi => by
    rw [getLsbD_maj, getLsbD_all_ones hi, Bool.atLeastTwo_true_left, BitVec.getLsbD_or]

/-- Settles O39: ch and maj bit by bit, and the corner values from those bits; the two fixed values are computed. -/
theorem chooseAndMajority : Obligations.ChooseAndMajority := by
  unfold Obligations.ChooseAndMajority
  refine ⟨fun x y z => ?laws, ?values⟩
  case laws =>
    exact ⟨getLsbD_ch x y z, getLsbD_maj x y z, maj_swap_first x y z, maj_swap_last x y z, ch_zero y z, ch_all_ones y z,
      ch_same x y, maj_same x z, maj_zero y z, maj_all_ones y z⟩
  case values => decide

/-- The two terms of ch have no common 1 bit. -/
theorem ch_terms_disjoint (x y z : Word) : (x &&& y) &&& (~~~x &&& z) = 0 :=
  BitVec.eq_of_getLsbD_eq fun i _ => by cases hx : x.getLsbD i <;> simp [hx]

theorem ch_eq_or (x y z : Word) : ch x y z = (x &&& y) ||| (~~~x &&& z) :=
  BitVec.eq_of_getLsbD_eq fun i hi => by
    simp only [getLsbD_ch, BitVec.getLsbD_or, BitVec.getLsbD_and, BitVec.getLsbD_not, decide_eq_true hi]
    cases x.getLsbD i <;> simp

theorem ch_eq_add (x y z : Word) : ch x y z = (x &&& y) + (~~~x &&& z) := by
  rw [BitVec.add_eq_or_of_and_eq_zero _ _ (ch_terms_disjoint x y z), ch_eq_or]

theorem ch_eq_xor_and_xor (x y z : Word) : ch x y z = z ^^^ (x &&& (y ^^^ z)) :=
  BitVec.eq_of_getLsbD_eq fun i _ => by rw [getLsbD_ch]; cases hx : x.getLsbD i <;> simp [hx, Bool.xor_left_comm]

theorem maj_eq_or_and_or (x y z : Word) : maj x y z = (x &&& y) ||| (z &&& (x ||| y)) :=
  BitVec.eq_of_getLsbD_eq fun i _ => by
    rw [getLsbD_maj, BitVec.getLsbD_or, BitVec.getLsbD_and, BitVec.getLsbD_and, BitVec.getLsbD_or, Bool.atLeastTwo,
      Bool.or_assoc, ← Bool.and_or_distrib_right, Bool.and_comm (_ || _)]

/-- Settles O40: each equal form has the bits of ch or of maj; the sum is the or of two disjoint terms. -/
theorem equalForms : Obligations.EqualForms := by
  unfold Obligations.EqualForms
  intro x y z
  exact ⟨ch_eq_xor_and_xor x y z, maj_eq_or_and_or x y z, ch_terms_disjoint x y z, ch_eq_or x y z, ch_eq_add x y z⟩

/-! ### The micro-operations (R155, R156, R159) -/

/-- Settles O42: the three definitions, with the two temporaries of ROUND named. -/
theorem roundMicroOperations : Obligations.RoundMicroOperations := by
  unfold Obligations.RoundMicroOperations
  refine ⟨fun s => ?loadv, fun t s t1 t2 h1 h2 => ?round, fun s => ?feedfwd⟩
  case loadv => rfl
  case round => subst h1 h2; rfl
  case feedfwd => rfl

/-! ### The rounds and the whole compression (R157, R160, R161) -/

/-- Settles O43: rounds write a..h and T only, and the n-th leaves T = n, which the seven bits of T hold. -/
theorem roundsKeepHashState : Obligations.RoundsKeepHashState := by
  unfold Obligations.RoundsKeepHashState
  intro s n hn
  have hT := foldl_round_T (loadv s) n hn (loadv_T s)
  rw [foldl_round] at hT ⊢
  refine ⟨?count, loadv_H s, loadv_W s, loadv_BUF s⟩
  case count => rw [hT, BitVec.toNat_ofNat, Nat.mod_eq_of_lt (by omega)]

/-- Settles O45: the four registers written are those of `compressSteps_eq`; the H among them is `compressFn`'s, because the
rounds over the stored schedule are those over the sixteen-word window (`roundsRegs_scheduleW`). -/
theorem compressRefinesFunction : Obligations.CompressRefinesFunction := by
  unfold Obligations.CompressRefinesFunction
  intro s
  have hH : feedSum s.H (roundsRegs (scheduleW s.BUF s.W) (List.finRange 64) (loadRegs s.H)) = compressFn s.H s.BUF := by
    rw [roundsRegs_scheduleW, compressFn]
  exact ⟨_, _, by rw [compress_eq_steps, compressSteps_eq, hH]⟩

end Sys2Proof.Machine
end

section
/-! PROOF. The read-out commands RDW, RDB and RDSTAT (45_readout.md R170 to R176): which of the cases of `exec` a read falls
under, what it answers, and that an OK read leaves the state as it was. -/

namespace Sys2Proof.Machine

/-! ### RDB and RDW, whole (R170 to R173) -/

theorem toNat_digestByte_setWidth (H : Vector Word 8) (j : Fin 32) : ((digestByte H j).setWidth 32).toNat =
    (H[j.val / 4]'(by omega)).toNat / 2 ^ (24 - 8 * (j.val % 4)) % 256 := by
  rw [BitVec.toNat_setWidth_of_le (by decide), digestByte, toNat_byteOf]

/-- Settles O47: R173's tests in their order, each with the case of `exec` it leads to; the byte answered is R170's. -/
theorem rdbReturnsDigestByte : Obligations.RdbReturnsDigestByte := by
  unfold Obligations.RdbReturnsDigestByte
  refine fun s j => ⟨fun hp => ?faulted, fun hp hj => ?index, fun hp hz hj => ?early, fun hj hp => ?byte⟩
  case faulted => exact (ExecCase.faulted (.rdb j) hp (by simp) (by simp) (by simp)).exec_eq
  case index => exact (Faults.indexByte j hj).exec_eq hp
  case early => exact (Faults.earlyByte j hj hz).exec_eq hp
  case byte => exact ⟨_, (ExecCase.byte j hp hj).exec_eq, toNat_digestByte_setWidth s.H ⟨j.toNat, by omega⟩⟩

/-- Settles O46: R172's tests in their order, each with the case of `exec` it leads to. -/
theorem rdwReturnsHashWord : Obligations.RdwReturnsHashWord := by
  unfold Obligations.RdwReturnsHashWord
  refine fun s i => ⟨fun hp => ?faulted, fun hp hi => ?index, fun hp hz hi => ?early, fun hi hp => ?word⟩
  case faulted => exact (ExecCase.faulted (.rdw i) hp (by simp) (by simp) (by simp)).exec_eq
  case index => exact (Faults.indexWord i hi).exec_eq hp
  case early => exact (Faults.earlyWord i hi hz).exec_eq hp
  case word => exact (ExecCase.word i hp hi).exec_eq

/-! ### Reads are pure (R176) -/

/-- Settles O49: an OK read writes only the response, so PHASE, H and STATUS stand as they did, and the same case of `exec`
applies again. -/
theorem readsArePure : Obligations.ReadsArePure := by
  unfold Obligations.ReadsArePure
  intro i s t d hread hexec hrsp
  cases exec_next hexec with
  | status => cases hrsp; exact ⟨rfl, ExecCase.status.exec_eq⟩
  | word x hp hx => cases hrsp; exact ⟨rfl, (ExecCase.word x hp hx).exec_eq⟩
  | byte x hp hx => cases hrsp; exact ⟨rfl, (ExecCase.byte x hp hx).exec_eq⟩
  | faulted => exact absurd (congrArg Response.status (Option.some.inj hrsp)) statusFaulted_ne_OK
  | faults i c _ _ => exact absurd (congrArg Response.status (Option.some.inj hrsp)) (statusOf_ne_OK c)
  | initialise i hinit => rcases hinit with rfl | rfl <;> simp at hread
  | accepts i u _ _ hacc => cases hacc <;> simp at hread

/-! ### No digest outside phase FINALIZED (R171, R197) -/

/-- Settles O55: RDW and RDB answer data only in phase FINALIZED, and every other case of `exec` but RDSTAT's answers 0. -/
theorem noDigestOutsideFinalized : Obligations.NoDigestOutsideFinalized := by
  unfold Obligations.NoDigestOutsideFinalized
  intro i s t hz hstat hexec
  cases exec_next hexec with
  | status => exact absurd rfl hstat
  | word _ hp _ | byte _ hp _ => exact absurd hp hz
  | initialise | faulted | faults | accepts => exact ⟨_, rfl⟩

end Sys2Proof.Machine
end

section
/-! PROOF. The faults (60_exceptions.md): which command raises which cause, what the entry to phase FAULT writes, what a
faulted engine answers, and how it is left. -/

namespace Sys2Proof.Machine

/-! ### Entry to phase FAULT (R181 to R187) -/

/-- Settles O52: each clause is the case of `Faults` whose hypotheses it states. -/
theorem ingestFaultPriority : Obligations.IngestFaultPriority := by
  unfold Obligations.IngestFaultPriority
  intro s p hf fault
  refine ⟨fun hz => ⟨?finalWrite, ?finalFinalize⟩, fun hz ho => ?overWrite, fun hl => ?length, fun hl hz => ?finalAbsorb,
    fun hl hz ha => ?align, fun hl hz ha ho => ?overAbsorb⟩
  case finalWrite => exact (Faults.finalWrite p hz).exec_eq hf
  case finalFinalize => exact (Faults.finalFinalize hz).exec_eq hf
  case overWrite => exact (Faults.overWrite p hz ho).exec_eq hf
  case length => exact (Faults.length p hl).exec_eq hf
  case finalAbsorb => exact (Faults.finalAbsorb p hl hz).exec_eq hf
  case align => exact (Faults.align p hl hz ha).exec_eq hf
  case overAbsorb => exact (Faults.overAbsorb p hl hz ha ho).exec_eq hf

/-- An accepted command does not fault (R186). -/
theorem Accepts.PHASE_ne_fault {i : Instr} {s u : State} (h : Accepts s i u) : u.PHASE ≠ .fault := by
  cases h <;> simp

/-- Only `raiseFault` enters phase FAULT. -/
theorem exec_enters_fault {i : Instr} {s t : State} (h : exec i s = .next t) (hs : s.PHASE ≠ .fault)
    (ht : t.PHASE = .fault) : ∃ c, t = raiseFault c (headerOf i) s := by
  cases exec_next h with
  | faults i c _ _ => exact ⟨c, rfl⟩
  | initialise => cases ht
  | status | word | byte | faulted => exact absurd ht hs
  | accepts i u _ _ ha => exact absurd ht ha.PHASE_ne_fault

theorem refuseHeader_of_fault {s : State} (hp : s.PHASE = .fault) (c : Cause) (hdr : Hdr) :
    refuseHeader c hdr s = answerFaulted s := if_pos hp

theorem refuseHeader_of_ne_fault {s : State} (hp : s.PHASE ≠ .fault) (c : Cause) (hdr : Hdr) :
    refuseHeader c hdr s = raiseFault c hdr s := if_neg hp

/-- Settles O51: a command that enters phase FAULT raises a cause, and R187 says what that writes. -/
theorem faultEntryIsPrecise : Obligations.FaultEntryIsPrecise := by
  unfold Obligations.FaultEntryIsPrecise
  refine ⟨fun i s t hs hexec ht => ?command, fun c hdr s hs => refuseHeader_of_ne_fault hs c hdr⟩
  case command =>
    obtain ⟨c, hc⟩ := exec_enters_fault hexec hs ht
    obtain ⟨hlow, hhigh⟩ := code_range c
    exact ⟨c, hlow, hhigh, hc⟩

/-! ### Phase FAULT (R184, R188, R189) -/

/-- Settles O50: such a command falls under the case `faulted` of `exec`, and an illegal header is answered the same. -/
theorem faultedEngineRefuses : Obligations.FaultedEngineRefuses := by
  unfold Obligations.FaultedEngineRefuses
  intro s hp
  exact ⟨fun i hinit hreset hstat => (ExecCase.faulted i hp hinit hreset hstat).exec_eq, refuseHeader_of_fault hp⟩

theorem SameEngine.trans {s t u : State} (h1 : SameEngine s t) (h2 : SameEngine t u) : SameEngine s u := by
  unfold SameEngine at *
  simp_all

/-- From phase FAULT a command initialises or changes no register. -/
theorem exec_of_fault {i : Instr} {s t : State} (hp : s.PHASE = .fault) (h : exec i s = .next t) :
    ((i = .init ∨ i = .reset) ∧ t.PHASE = .init) ∨ SameEngine s t := by
  cases exec_next h with
  | initialise i hi => exact .inl ⟨hi, rfl⟩
  | status | faulted => exact .inr (by simp [SameEngine])
  | faults _ _ hf _ | accepts _ _ hf _ _ => exact absurd hp hf
  | word _ hz _ | byte _ hz _ => simp [hp] at hz

/-- The rows of INIT and RESET fix every bit of the header. -/
theorem opcodeRows_initialise : ∀ row ∈ opcodeRows, row.mnemonic = "INIT" ∨ row.mnemonic = "RESET" →
    row.mask = 0xFFFF#16 ∧ (row.pattern = 0x1000#16 ∨ row.pattern = 0x5000#16) := by decide

/-- INIT and RESET have one header each, whatever payload is offered beside it. -/
theorem hdr_of_decodes_initialise {hdr : Hdr} {p : List Byte} {i : Instr} (hd : decodeCommand hdr p = .ok i)
    (hi : i = .init ∨ i = .reset) : hdr = 0x1000#16 ∨ hdr = 0x5000#16 := by
  cases hd ▸ decodeCommand_rowOutcome hdr p with
  | row row hrow hname hmatch =>
    have hmnemonic : row.mnemonic = "INIT" ∨ row.mnemonic = "RESET" := by
      rcases hi with rfl | rfl
      · exact .inl hname
      · exact .inr hname
    obtain ⟨hmask, hpattern⟩ := opcodeRows_initialise row hrow hmnemonic
    have hall : hdr &&& 0xFFFF#16 = hdr := BitVec.and_allOnes
    rw [hmask, hall] at hmatch
    rwa [hmatch]

/-- From phase FAULT a step goes to phase INIT, by hardware reset or the header of INIT or RESET, or changes no register. -/
theorem step_of_fault {s t : State} (hp : s.PHASE = .fault) (h : step s = .next t) :
    (t.PHASE = .init ∧ (s.rstN = false ∨
      ∃ hdr p u, fetch s = .command hdr p u ∧ (hdr = 0x1000#16 ∨ hdr = 0x5000#16))) ∨ SameEngine s t := by
  rcases fetch_core s with ⟨hr, hf⟩ | ⟨-, u, hf, hsame⟩ | ⟨-, hdr, p, u, hf, -, hsame, -, -⟩
  · rw [step_of_wait hf] at h
    cases h
    exact .inl ⟨rfl, .inl hr⟩
  · rw [step_of_wait hf] at h
    cases h
    exact .inr hsame
  · have hpu : u.PHASE = .fault := by
      obtain ⟨-, -, -, -, -, hPHASE, -, -, -⟩ := hsame
      exact hPHASE ▸ hp
    cases hd : decodeCommand hdr p with
    | ok i =>
      rcases exec_of_fault hpu (step_of_decoded hf hd ▸ h) with ⟨hi, ht⟩ | ht
      · exact .inl ⟨ht, .inr ⟨hdr, p, u, hf, hdr_of_decodes_initialise hd hi⟩⟩
      · exact .inr (hsame.trans ht)
    | error c =>
      rw [step_of_illegal hf hd, refuseHeader_of_fault hpu] at h
      cases h
      exact .inr (hsame.trans (by simp [SameEngine]))

/-- Settles O54: the exits and the unchanged registers are the two cases of `step_of_fault`. -/
theorem faultIsSticky : Obligations.FaultIsSticky := by
  unfold Obligations.FaultIsSticky
  intro s t hp hstep
  rcases step_of_fault hp hstep with ⟨ht, hexit⟩ | ⟨hH, -, -, hBUF, hLENB, hPHASE, hERR, hERRHDR, -⟩
  · exact ⟨fun _ => hexit, fun hf => by simp [ht] at hf⟩
  · exact ⟨fun hne => absurd (hPHASE ▸ hp) hne, fun _ => ⟨hERR.symm, hERRHDR.symm, hH.symm, hLENB.symm, hBUF.symm⟩⟩

/-! ### The phase transition table (R191) -/

theorem phaseTable_fault {i : Instr} (h1 : i ≠ .init) (h2 : i ≠ .reset) (h3 : i ≠ .rdstat) :
    phaseTable i .fault = [.fault] := by
  cases i with
  | init | reset | rdstat => contradiction
  | write | absorb | finalize | rdw | rdb | srcerr => rfl

/-- Between two commands, neither faulted nor finalized, the phase is INIT with nothing counted, or ABSORBING. -/
theorem State.Inv.ingesting_phase {s : State} (h : s.Inv) (hf : s.PHASE ≠ .fault) (hz : s.PHASE ≠ .finalized) :
    (s.PHASE = .init ∧ s.LENB.toNat = 0) ∨ s.PHASE = .absorbing := by
  have hpad := h.phase
  have hfresh := h.fresh
  cases hp : s.PHASE with
  | init => exact .inl ⟨rfl, by rw [(hfresh hp).1]; rfl⟩
  | absorbing => exact .inr rfl
  | padding | finalized | fault => contradiction

/-- R191: wherever a command faults, the table has FAULT. A WRITE or a 64-byte ABSORB does not fault in phase INIT. -/
theorem Faults.fault_mem_phaseTable {i : Instr} {c : Cause} {s : State} (h : Faults s i c) (hwf : i.wf = true)
    (hinv : s.Inv) (hf : s.PHASE ≠ .fault) : .fault ∈ phaseTable i s.PHASE := by
  have hphase := hinv.ingesting_phase hf
  cases h with
  | srcerr => cases s.PHASE <;> simp [phaseTable]
  | finalFinalize hz | finalWrite p hz | finalAbsorb p _ hz => simp [phaseTable, hz]
  | overWrite p hz ho =>
    have hlen : p.length ≤ 255 := of_decide_eq_true hwf
    rcases hphase hz with ⟨-, hL⟩ | hp
    · omega
    · simp [phaseTable, hp]
  | length p hl => cases s.PHASE <;> simp [phaseTable, hl]
  | align p hl hz ha =>
    rcases hphase hz with ⟨-, hL⟩ | hp
    · omega
    · simp [phaseTable, hp, hl]
  | overAbsorb p hl hz _ ho =>
    rcases hphase hz with ⟨-, hL⟩ | hp
    · omega
    · simp [phaseTable, hp, hl]
  | indexWord x hx => cases s.PHASE <;> simp [phaseTable, show ¬ x.toNat ≤ 7 by omega]
  | indexByte x hx => cases s.PHASE <;> simp [phaseTable, show ¬ x.toNat ≤ 31 by omega]
  | earlyWord x _ hz | earlyByte x _ hz => rcases hphase hz with ⟨hp, -⟩ | hp <;> simp [phaseTable, hp]

/-- R191: the entries of the commands that are accepted, all from phase INIT or ABSORBING. -/
theorem Accepts.mem_phaseTable {i : Instr} {s u : State} (h : Accepts s i u)
    (hp : s.PHASE = .init ∨ s.PHASE = .absorbing) : u.PHASE ∈ phaseTable i s.PHASE := by
  cases h with
  | write p _ => rcases hp with hp | hp <;> simp [phaseTable, hp]
  | absorb p hl _ _ => rcases hp with hp | hp <;> simp [phaseTable, hp, hl]
  | finalize => rcases hp with hp | hp <;> simp [phaseTable, hp]

/-- Settles O56: each case of `exec` by its entries of the table. -/
theorem phaseTransitionTable : Obligations.PhaseTransitionTable := by
  unfold Obligations.PhaseTransitionTable
  intro i s t hwf hinv hexec
  cases exec_next hexec with
  | initialise i hi => rcases hi with rfl | rfl <;> simp [phaseTable]
  | status => simp [phaseTable]
  | faulted i hp h1 h2 h3 => simp [hp, phaseTable_fault h1 h2 h3]
  | faults i c hf hfault => exact hfault.fault_mem_phaseTable hwf hinv hf
  | word x hp hx | byte x hp hx => simp [phaseTable, hp, hx]
  | accepts i u hf hz ha => exact ha.mem_phaseTable ((hinv.ingesting_phase hf hz).imp_left And.left)

end Sys2Proof.Machine
end

section
/-! PROOF. The step function as R185 writes it (60_exceptions.md R185, 30_encoding.md R78): where R78 rejects an operand
while decoding, the meaning of the command makes the same test first, so both forms answer the same. -/

namespace Sys2Proof.Machine

/-- The tests of the operand that R78 makes while decoding and the machine in the meanings of ABSORB, RDW and RDB (R76). -/
def testOperand : Instr → Except Cause Instr
  | .absorb p => if p.length = 64 then .ok (.absorb p) else .error .E_BLOCKLEN
  | .rdw i => if i.toNat ≤ 7 then .ok (.rdw i) else .error .E_INDEX
  | .rdb j => if j.toNat ≤ 31 then .ok (.rdb j) else .error .E_INDEX
  | i => .ok i

theorem testOperand_ok {i j : Instr} (h : testOperand i = .ok j) : j = i := by
  unfold testOperand at h
  split at h
  case h_1 | h_2 | h_3 => split at h <;> cases h; rfl
  case h_4 => cases h; rfl

theorem plen_of_opc_eq_three {hdr : Hdr} (h : (opc hdr).toNat = 3) : plen hdr = (arg hdr).toNat :=
  if_pos (.inr (BitVec.eq_of_toNat_eq h))

theorem arg_toNat_eq_zero_iff (hdr : Hdr) : (arg hdr).toNat = 0 ↔ arg hdr = 0 := by
  rw [← BitVec.toNat_inj]; rfl

/-- The commands without operand: both decoders ask ARG = 0, and there is no operand to test. -/
theorem noOperand_eq_bind {i : Instr} (hi : testOperand i = .ok i) (hdr : Hdr) :
    (if (arg hdr).toNat = 0 then .ok i else .error Cause.E_ILLEGAL) =
      (if arg hdr = 0 then .ok i else .error Cause.E_ILLEGAL : Except Cause Instr).bind testOperand := by
  by_cases ha : arg hdr = 0
  · rw [if_pos ha, if_pos ((arg_toNat_eq_zero_iff hdr).2 ha)]
    exact hi.symm
  · rw [if_neg ha, if_neg ((arg_toNat_eq_zero_iff hdr).not.2 ha)]
    rfl

/-- R78 is the decoder and then the operand tests. -/
theorem decodeR78_eq_bind (hdr : Hdr) (p : List Byte) (hp : p.length = plen hdr) :
    decodeR78 hdr p = (decodeCommand hdr p).bind testOperand := by
  have hlen : (opc hdr).toNat = 3 → (arg hdr).toNat = p.length := fun ho => (hp.trans (plen_of_opc_eq_three ho)).symm
  unfold decodeR78 decodeCommand
  by_cases hz : zeroField hdr ≠ 0
  · simp only [if_pos hz]
    rfl
  simp only [if_neg hz]
  generalize (opc hdr).toNat = n at hlen ⊢
  match n with
  | 1 | 4 | 5 | 8 | 9 => exact noOperand_eq_bind rfl hdr
  | 3 =>
    rw [hlen rfl]
    rfl
  | 0 | 2 | 6 | 7 | _ + 10 => rfl

/-- Outside steps 1 and 2 of R185, the later steps decide. -/
theorem stepR185_guarded {hdr : Hdr} {p : List Byte} {i : Instr} (hd : decodeR78 hdr p = .ok i) (h1 : i ≠ .init)
    (h2 : i ≠ .reset) (h3 : i ≠ .rdstat) (s : State) : stepR185 hdr p s = guardedR185 hdr (.ok i) s := by
  unfold stepR185
  rw [hd]
  cases i with
  | init | reset | rdstat => contradiction
  | write | absorb | finalize | rdw | rdb | srcerr => rfl

theorem stepR185_of_error {hdr : Hdr} {p : List Byte} {c : Cause} (hd : decodeR78 hdr p = .error c) (s : State) :
    stepR185 hdr p s = refuseHeader c hdr s := by
  unfold stepR185
  rw [hd]
  rfl

/-! ### Each case of exec is what R185 answers -/

section
variable {s : State} {i : Instr}

/-- A fault of the machine is raised by R185 in step 4, or by the later steps with the same cause. -/
theorem Faults.raised_by_R185 {c : Cause} (h : Faults s i c) (hp : s.PHASE ≠ .fault) :
    testOperand i = .error c ∨
    (testOperand i = .ok i ∧ guardedR185 (headerOf i) (.ok i) s = raiseFault c (headerOf i) s) := by
  cases h with
  | length p hl => exact .inl (if_neg hl)
  | indexWord x hx | indexByte x hx => exact .inl (if_neg (by omega))
  | srcerr => exact .inr ⟨rfl, if_neg hp⟩
  | finalFinalize hz | finalWrite p hz => exact .inr ⟨rfl, by simp [guardedR185, hz]⟩
  | overWrite p hz ho => exact .inr ⟨rfl, by simp only [guardedR185, if_neg hp, if_neg hz, if_pos ho]⟩
  | finalAbsorb p hl hz => exact .inr ⟨if_pos hl, by simp [guardedR185, hz]⟩
  | align p hl hz ha => exact .inr ⟨if_pos hl, by simp [guardedR185, hp, hz, ha]⟩
  | overAbsorb p hl hz ha ho =>
    exact .inr ⟨if_pos hl, by simp only [guardedR185, if_neg hp, if_neg hz, if_neg (not_not.2 ha), if_pos ho]⟩
  | earlyWord x hx hz | earlyByte x hx hz => exact .inr ⟨if_pos hx, by simp [guardedR185, hp, hz]⟩

theorem Accepts.guardedR185_eq {u : State} (h : Accepts s i u) (hp : s.PHASE ≠ .fault) (hz : s.PHASE ≠ .finalized)
    (hdr : Hdr) : testOperand i = .ok i ∧ guardedR185 hdr (.ok i) s = respond statusOK 0 u := by
  cases h with
  | write p hle => exact ⟨rfl, by simp only [guardedR185, if_neg hp, if_neg hz, if_neg (Nat.not_lt.2 hle)]⟩
  | absorb p hl ha hle =>
    exact ⟨if_pos hl, by simp only [guardedR185, if_neg hp, if_neg hz, if_neg (not_not.2 ha), if_neg (Nat.not_lt.2 hle)]⟩
  | finalize => exact ⟨rfl, by simp [guardedR185, hp, hz]⟩

theorem ExecCase.stepR185_eq {t : State} {p : List Byte} (h : ExecCase s i t)
    (hd : decodeR78 (headerOf i) p = testOperand i) : stepR185 (headerOf i) p s = t := by
  cases h with
  | initialise i hi => rcases hi with rfl | rfl <;> simp [stepR185, hd, testOperand]
  | status => simp [stepR185, hd, testOperand]
  | faulted i hp h1 h2 h3 =>
    cases ht : testOperand i with
    | error c => rw [stepR185_of_error (hd.trans ht), refuseHeader_of_fault hp]
    | ok j =>
      obtain rfl := testOperand_ok ht
      rw [stepR185_guarded (hd.trans ht) h1 h2 h3]
      exact if_pos hp
  | faults i c hp hfault =>
    obtain ⟨h1, h2, h3⟩ := hfault.not_exempt
    rcases hfault.raised_by_R185 hp with ht | ⟨ht, hraise⟩
    · rw [stepR185_of_error (hd.trans ht), refuseHeader_of_ne_fault hp]
    · rw [stepR185_guarded (hd.trans ht) h1 h2 h3, hraise]
  | word x hp hx =>
    rw [stepR185_guarded (hd.trans (if_pos hx)) (by simp) (by simp) (by simp)]
    simp [guardedR185, hp, Vector.getD, show x.toNat < 8 by omega]
  | byte x hp hx =>
    rw [stepR185_guarded (hd.trans (if_pos hx)) (by simp) (by simp) (by simp)]
    simp [guardedR185, hp, digestByte, Vector.getD, show x.toNat / 4 < 8 by omega]
  | accepts i u hp hz hacc =>
    obtain ⟨ht, haccept⟩ := hacc.guardedR185_eq hp hz (headerOf i)
    have hne : i ≠ .init ∧ i ≠ .reset ∧ i ≠ .rdstat := by cases hacc <;> simp
    obtain ⟨h1, h2, h3⟩ := hne
    rw [stepR185_guarded (hd.trans ht) h1 h2 h3, haccept]

end

/-- Settles O53: the command is taken whole, and each case of `exec`, or the refusal, is what R185 answers. -/
theorem stepRefinesStepFunction : Obligations.StepRefinesStepFunction := by
  unfold Obligations.StepRefinesStepFunction
  intro s hdr hdrs p more hr ho hc hi hp hl
  have hfetch := fetch_whole s hdr hdrs p more hr ho hc hi hp hl
  have hbind := decodeR78_eq_bind hdr p hl
  cases hd : decodeCommand hdr p with
  | ok i =>
    rw [hd] at hbind
    obtain ⟨rfl, -⟩ := decodeCommand_ok hdr p i hl hd
    obtain ⟨t, ht, hcase⟩ := exec_cases i { s with cmdIn := hdrs, plIn := more, rspOut := none }
    rw [step_of_decoded hfetch hd, ht, hcase.stepR185_eq hbind]
  | error c =>
    rw [hd] at hbind
    rw [step_of_illegal hfetch hd, stepR185_of_error hbind]

end Sys2Proof.Machine
end

section
/-! PROOF. Reset and hazards (70_reset_and_hazards.md): hardware reset against INIT and RESET (R210 to R213), a command whose
payload is withheld (R218 (a)), and the micro-operations of one block (R220, R221). -/

namespace Sys2Proof.Machine

/-! ### Reset (R210, R212, R213) -/

theorem fetch_reset {s : State} (hr : s.rstN = false) : fetch s = .wait (hardwareReset s) := if_pos hr

/-- Of the state before it, hardware reset keeps the host's side of the ports and nothing else. -/
theorem hardwareReset_congr {s u : State} (hr : u.rstN = s.rstN) (hcmd : u.cmdIn = s.cmdIn) (hpl : u.plIn = s.plIn)
    (hready : u.rspReady = s.rspReady) : hardwareReset u = hardwareReset s := by
  rw [hardwareReset, hardwareReset, hr, hcmd, hpl, hready]

/-- Settles O57: the step is hardware reset, which reads only the host's side of the ports. -/
theorem hardwareResetFromAnyState : Obligations.HardwareResetFromAnyState := by
  unfold Obligations.HardwareResetFromAnyState
  intro s hr
  refine ⟨hardwareReset s, step_of_wait (fetch_reset hr), rfl, rfl, rfl, rfl, rfl, rfl, rfl, rfl, rfl, rfl, hr, ?prior⟩
  case prior =>
    intro u hu hcmd hpl hready
    rw [step_of_wait (fetch_reset hu), hardwareReset_congr (hu.trans hr.symm) hcmd hpl hready]

/-- With no command in progress and no response offered, what `initialise` leaves is visibly hardware reset: LENB is 0, so
no byte of BUF is waiting. -/
theorem initialise_sameVisible_hardwareReset {s : State} (hcur : s.cur = none) (hrsp : s.rspOut = none) :
    (initialise s).SameVisible (hardwareReset s) where
  H := rfl
  LENB := rfl
  PHASE := rfl
  ERR := rfl
  ERRHDR := rfl
  waiting k hk := by simp at hk
  rstN := rfl
  cmdIn := rfl
  plIn := rfl
  cur := hcur
  rspOut := hrsp
  rspReady := rfl

/-- Settles O58: both commands are `initialise`, and taking their response leaves the state as if there had been none. -/
theorem threeResetsAgree : Obligations.ThreeResetsAgree := by
  unfold Obligations.ThreeResetsAgree
  intro s t hcur h
  have ht : t = respond statusOK 0 (initialise s) := by rcases h with ⟨⟨⟩⟩ | ⟨⟨⟩⟩ <;> rfl
  rw [ht]
  exact initialise_sameVisible_hardwareReset (s := takeResponse s) hcur rfl

/-! ### Payload withheld (R218 (a), R85) -/

theorem fetch_header {s : State} {hdr : Hdr} {hdrs : List Hdr} (hr : s.rstN = true) (hrsp : s.rspOut = none)
    (hcur : s.cur = none) (hcmd : s.cmdIn = hdr :: hdrs) : fetch s = takePayload hdr [] { s with cmdIn := hdrs } := by
  simp [fetch, hr, hrsp, hcur, hcmd, takeResponse_of_none hrsp]

theorem fetch_inProgress {s : State} {c : InProgress} (hr : s.rstN = true) (hrsp : s.rspOut = none)
    (hcur : s.cur = some c) : fetch s = takePayload c.hdr c.got s := by
  simp [fetch, hr, hrsp, hcur, takeResponse_of_none hrsp]

theorem takePayload_short {hdr : Hdr} {got : List Byte} {s : State} (h : got.length + s.plIn.length < plen hdr) :
    takePayload hdr got s = .wait { s with plIn := [], cur := some ⟨hdr, got ++ s.plIn⟩ } := by
  rcases takePayload_cases hdr got s with ⟨-, heq⟩ | ⟨hle, -⟩
  · exact heq
  · omega

/-- u with a command at the front of its channels, whole. -/
def State.offering (hdr : Hdr) (p : List Byte) (u : State) : State :=
  { u with cmdIn := hdr :: u.cmdIn, plIn := p ++ u.plIn }

section
variable {u : State} {hdr : Hdr} {p : List Byte} (hr : u.rstN = true) (hrsp : u.rspOut = none) (hcur : u.cur = none)
  (hl : p.length = plen hdr)
include hr hrsp hcur hl

theorem fetch_offering : fetch (u.offering hdr p) = .command hdr p u :=
  (fetch_whole (u.offering hdr p) hdr u.cmdIn p u.plIn hr (.inl hrsp) hcur rfl rfl hl).trans
    (congrArg (Fetch.command hdr p) (takeResponse_of_none hrsp))

theorem step_offering : step (u.offering hdr p) = .next (stepR185 hdr p u) :=
  (stepRefinesStepFunction (u.offering hdr p) hdr u.cmdIn p u.plIn hr (.inl hrsp) hcur rfl rfl hl).trans
    (congrArg (Host.Outcome.next ∘ stepR185 hdr p) (takeResponse_of_none hrsp))

/-- In however many pieces its payload came, a command is executed by R185: `step` sees only what `fetch` gives, and that is
what it gives of the command offered whole. -/
theorem step_of_fetch_command {s : State} (hf : fetch s = .command hdr p u) : step s = .next (stepR185 hdr p u) := by
  have hfetch : fetch s = fetch (u.offering hdr p) := hf.trans (fetch_offering hr hrsp hcur hl).symm
  calc
    step s = step (u.offering hdr p) := by rw [step, hfetch, step]
    _ = .next (stepR185 hdr p u) := step_offering hr hrsp hcur hl

end

/-- Settles O21: short of payload, `takePayload` waits with what there is, and with nothing more offered it leaves the
state as it found it; with the rest, it gives the whole command. -/
theorem withheldPayloadStalls : Obligations.WithheldPayloadStalls := by
  unfold Obligations.WithheldPayloadStalls
  intro s hdr hdrs p q more hr hrsp hcur hcmd hpl hshort hlen w
  refine ⟨?takes, ?stays, ?executes⟩
  case takes =>
    subst hpl
    exact step_of_wait ((fetch_header hr hrsp hcur hcmd).trans (takePayload_short (by simpa using hshort)))
  case stays =>
    have hfetch : fetch w = takePayload hdr p w := fetch_inProgress (s := w) hr hrsp rfl
    have hwait := takePayload_short (hdr := hdr) (got := p) (s := w) (by simpa [w] using hshort)
    rw [List.append_nil] at hwait
    exact step_of_wait (hfetch.trans hwait)
  case executes =>
    have hfetch : fetch { w with plIn := q ++ more } = takePayload hdr p { w with plIn := q ++ more } :=
      fetch_inProgress (s := { w with plIn := q ++ more }) hr hrsp rfl
    have hwhole : (p ++ q).length = plen hdr := by rw [List.length_append, hlen]
    exact step_of_fetch_command (u := { w with plIn := more, cur := none }) hr hrsp rfl hwhole
      (hfetch.trans (takePayload_done hdr p q more _ hlen rfl))

/-! ### The micro-operations of one block (R220, R221) -/

/-- Running the sequence of one block is `schedule`, LOADV, the rounds and FEEDFWD. -/
theorem foldl_blockMicroOps (s : State) :
    blockMicroOps.foldl (fun s m => runMicroOp m s) s = feedfwd (rounds (loadv (schedule s))) := by
  simp only [blockMicroOps, List.foldl_append, List.foldl_map, List.foldl_cons, List.foldl_nil]
  rfl

theorem expIndices_length : expIndices.length = 48 := by simp [expIndices]

/-- Position n of the expansions is the one of W[16 + n]. -/
theorem expIndices_getElem? (n : Nat) : expIndices[n]? = (List.finRange 64)[16 + n]? := List.getElem?_drop

theorem blockMicroOps_load (t : Fin 16) : blockMicroOps[t.val]? = some (.schedLoad t) := by
  simp [blockMicroOps, List.getElem?_append]

/-- Sixteen loads stand before the expansions, which begin at t = 16: SCHED_EXP t is at position t. -/
theorem blockMicroOps_exp (t : Fin 64) (ht : 16 ≤ t.val) : blockMicroOps[t.val]? = some (.schedExp t) := by
  have hexp : expIndices[t.val - 16]? = some t := by
    rw [expIndices_getElem?, Nat.add_sub_cancel' ht]
    simp
  have hlt : t.val - 16 < 48 := by omega
  rw [blockMicroOps, List.append_assoc, List.append_assoc, List.append_assoc, List.getElem?_append_right (by simpa using ht),
    List.getElem?_append_left (by simpa [expIndices_length] using hlt), List.getElem?_map, List.length_map,
    List.length_finRange, hexp]
  rfl

/-- The schedule takes the first 64 positions. -/
theorem blockMicroOps_after_schedule (n : Nat) :
    blockMicroOps[64 + n]? = (MicroOp.loadv :: ((List.finRange 64).map .round ++ [.feedfwd]))[n]? := by
  have hschedule : ((List.finRange 16).map MicroOp.schedLoad ++ expIndices.map MicroOp.schedExp).length = 64 := by
    simp [expIndices_length]
  rw [blockMicroOps, List.append_assoc, List.append_assoc, List.getElem?_append_right (by omega), hschedule,
    Nat.add_sub_cancel_left]
  rfl

/-- Settles O44: the fold goes through the five parts of the list, and each position is found by the lengths of the parts
before it. -/
theorem compressIsItsMicroOperations : Obligations.CompressIsItsMicroOperations := by
  unfold Obligations.CompressIsItsMicroOperations
  refine ⟨?length, fun s => ?fold, blockMicroOps_load, blockMicroOps_exp, blockMicroOps_after_schedule 0, fun t => ?round,
    ?feedfwd⟩
  case length => simp [blockMicroOps, expIndices_length]
  case fold => rw [compress_eq, foldl_blockMicroOps]
  case round =>
    have hpos : 65 + t.val = 64 + (t.val + 1) := by omega
    rw [hpos, blockMicroOps_after_schedule, List.getElem?_cons_succ]
    simp [List.getElem?_append]
  case feedfwd =>
    rw [blockMicroOps_after_schedule 65, List.getElem?_cons_succ, List.getElem?_append_right (by simp)]
    simp

end Sys2Proof.Machine
end
